-- ==== Sys2Proof/Word.lean ====
section
/-! DEFINITION. The two units of data: the 32-bit word of registers, memory and instructions
(spec/00_scope.md R6, R9) and the byte of the input and output streams (spec/44_io.md R160). -/

namespace Sys2Proof

/-- A u32: every register, memory word and instruction word (R6, R9). Comparisons are unsigned. -/
abbrev Word := BitVec 32

/-- One byte of an I/O stream or of a program file (R54, R160). -/
abbrev Byte := BitVec 8

end Sys2Proof
end

