-- ==== Sys2Proof/Config.lean ====
section
/-! DEFINITION. What an implementation of CORE fixes: the parameter `PC_PAST_BOUND` and the numeric
limits the spec decides (spec/00_scope.md R6, R7), and the free values an endless input stream goes on with.
The other open parameters are not constants of the machine: `INIT_REGS` and `INPUT_STREAM` are arguments
of the loader and `MEM_CAPACITY` is a list of answers in `State`. -/

namespace Sys2Proof

/-- `PC_PAST_BOUND` (R97, D5): what a step does when it finds pc > bound. -/
inductive PcPastBound where
  /-- `fault`: raise `PcOutOfRange(pc, bound)`. -/
  | fault
  /-- `end`: end the run successfully, as at pc = bound. -/
  | endRun
  deriving DecidableEq, Repr

/-- The parameters fixed for one machine. No instruction writes them. -/
structure Config where
  pcPastBound : PcPastBound
  deriving DecidableEq, Repr

/-- The most slots a segment table has: an identifier fits a 32-bit register (R48, D8). -/
def Config.maxSlots : Nat := 4294967296

/-- The most words of a segment, the program included (D17). -/
def Config.maxSegmentWords : Nat := 4294967295

/-- The bytes of the endless input streams, by the stream's number and the position in it (R163, D9). A
free value, log 28: it has no body, so what is proved of it holds for every infinite sequence of bytes. -/
opaque Config.inputStream (stream position : Nat) : Byte

end Sys2Proof
end

