-- ==== Sys2Proof/Syntax.lean ====
section
/-! DEFINITION. The instructions as data: the fourteen operations (spec/30_encoding.md R80), an
instruction with its operands typed so that no ill-formed one exists (R23, R87), and the assembler's
source line, whose operands are unchecked numbers (R85). -/

namespace Sys2Proof

/-- A register index, 0 to 7 by construction (R23). -/
abbrev Reg := Fin 8

/-- The fourteen operations, by the names of `opcode_table.json`. Their numbers are in
`Operation.opcode` of Decode.lean, the one table of `OPCODE_ASSIGNMENT` (R81, D1). -/
inductive Operation where
  | conditionalMove
  | segmentLoad
  | segmentStore
  | add
  | multiply
  | divide
  | bitwiseNand
  | halt
  | mapSegment
  | unmapSegment
  | output
  | input
  | loadProgram
  | loadValue
  deriving DecidableEq, Repr

/-- Every operation once. -/
def Operation.all : List Operation :=
  [.conditionalMove, .segmentLoad, .segmentStore, .add, .multiply, .divide, .bitwiseNand, .halt,
    .mapSegment, .unmapSegment, .output, .input, .loadProgram, .loadValue]

/-- An instruction: one constructor per row of the opcode table, carrying exactly the fields that
row's operation reads (R80, R87). -/
inductive Instr where
  | conditionalMove (a b c : Reg)
  | segmentLoad (a b c : Reg)
  | segmentStore (a b c : Reg)
  | add (a b c : Reg)
  | multiply (a b c : Reg)
  | divide (a b c : Reg)
  | bitwiseNand (a b c : Reg)
  | halt
  | mapSegment (b c : Reg)
  | unmapSegment (c : Reg)
  | output (c : Reg)
  | input (c : Reg)
  | loadProgram (b c : Reg)
  | loadValue (a : Reg) (imm : BitVec 25)
  deriving DecidableEq, Repr

/-- The operation an instruction performs. -/
def Instr.operation : Instr → Operation
  | .conditionalMove _ _ _ => .conditionalMove
  | .segmentLoad _ _ _ => .segmentLoad
  | .segmentStore _ _ _ => .segmentStore
  | .add _ _ _ => .add
  | .multiply _ _ _ => .multiply
  | .divide _ _ _ => .divide
  | .bitwiseNand _ _ _ => .bitwiseNand
  | .halt => .halt
  | .mapSegment _ _ => .mapSegment
  | .unmapSegment _ => .unmapSegment
  | .output _ => .output
  | .input _ => .input
  | .loadProgram _ _ => .loadProgram
  | .loadValue _ _ => .loadValue

/-- An operand as an assembler meets it: a register `r<n>` or a number (R85). -/
inductive SourceOperand where
  | reg (n : Nat)
  | imm (n : Nat)
  deriving DecidableEq, Repr

/-- One line of assembler text after tokenising: the mnemonic and its operands in the order of the
syntax table of R85. -/
structure SourceLine where
  op : Operation
  operands : List SourceOperand
  deriving DecidableEq, Repr

end Sys2Proof
end

