-- ==== Sys2Proof/Machine/Defaults.lean ====
section
/-! DEFINITION. The values `State.reset` takes for what the spec leaves open at reset
(spec/92_eei_decisions.md D3, D5, D8, D9), and what an input source may do after its listed answers. -/

namespace Sys2Proof.Machine

/-- What the input source does after the answers it has given (R163, R165, D9). -/
inductive InputTail where
  /-- A finite stream at its end: end of input, every time. -/
  | exhausted
  /-- The source has not answered yet: the host may still give a byte or report the end. -/
  | unanswered
  /-- An infinite stream, at this position of the endless stream of that number. -/
  | endless (stream position : Nat)
  deriving DecidableEq, Repr

/-- `INIT_REGS` at `State.reset`. DESIGN CHOICE, log 3: the spec gives no value (R34, D3) and offers
"all zero" to a model that must pick one. Unsafe: a claim that rests on it is not the spec's. -/
def initRegs : Vector Word 8 := Vector.replicate 8 0

/-- `PC_PAST_BOUND` defaults to `fault` (R97, D5), log 4. Safe. -/
def initConfig : Config := { pcPastBound := .fault }

/-- `MEM_CAPACITY` at `State.reset`: every question is answered yes. DESIGN CHOICE, log 7: the spec
leaves it open (D8). Unsafe: real memory runs out. -/
def initCapacity : List Bool := []

/-- `INPUT_STREAM` at `State.reset`: no byte. DESIGN CHOICE, log 9: the spec leaves it open (D9).
Unsafe: a claim that rests on it is about the empty stream only. -/
def initInputPending : List Word := []

/-- The stream of `State.reset` is a finite one, exhausted (D9), log 9. -/
def initInputTail : InputTail := .exhausted

end Sys2Proof.Machine
end

