-- ==== Sys2Proof/Machine/State.lean ====
section
/-! DEFINITION. The machine's state, whole, as plain data (spec/10_state.md, spec/20_memory.md R40,
spec/44_io.md), the faults of spec/60_exceptions.md R182, the refusals, and the state after reset. -/

namespace Sys2Proof.Machine

/-- The faults of R182, with the `info` each carries for the report of R187. A fault ends the run: it is
the outcome `fault` of a step and carries no state, so no claim can read registers or memory after it
(R186, D14; safe, log 14). -/
inductive Fault where
  /-- Code 1. Raised by divide when x[C] = 0 (R113). `w` is the instruction word at pc, none only in a
  state where segment 0 has no word at pc (log 16). The spec's own fault. -/
  | divideByZero (pc : Word) (w : Option Word)
  /-- Code 2. Raised by segment-load and segment-store (R46, R47), by unmap-segment of an invalid
  non-zero identifier (R50, D6; safe) and by load-program from one (R52, D7; safe). -/
  | invalidSegmentAccess (id off : Word)
  /-- Code 3. Raised by unmap-segment with x[C] = 0 (R133). The spec's own fault. -/
  | unmapProgramSegment (id : Word)
  /-- Code 4. Raised by output with x[C] >= 256 (R161). The spec's own fault. -/
  | outputOutOfRange (value : Word)
  /-- Code 5. Raised by the loop on opcode 14 or 15 (R94). The spec's own fault. -/
  | dispatchFault (opcode : BitVec 4) (pc w : Word)
  /-- Code 6. Raised by input when the source answers a value >= 256 (R164); never while the source
  keeps R163. The spec's own fault. -/
  | inputOutOfRange (value : Word)
  /-- Code 7. Raised by map-segment and load-program when the Address Space cannot hold the segment,
  and by map-segment when no identifier is left (R48, R52, D8). Safe: the run stops. -/
  | resourceExhausted (length : Word)
  /-- Code 8. Raised by the loop at pc > bound when `PC_PAST_BOUND = fault` (R97, D5). Safe: the
  reference may end the run successfully there. -/
  | pcOutOfRange (pc bound : Word)
  deriving DecidableEq, Repr

/-- Why the model answers no step. Both are safe: nothing can be proved of a next state. -/
inductive Refusal where
  /-- An instruction without a meaning. No arm of `exec` raises it: every instruction is modelled. -/
  | notModelled (mnemonic : String)
  /-- Raised by the loop in a state whose run is over: "A state with `run` other than `Running` has no
  step" (R101), log 15. -/
  | runOver
  deriving DecidableEq, Repr

/-- The run state (R28). -/
inductive RunState where
  | running
  /-- The halt operation executed. -/
  | halted
  /-- The loop found pc = bound. -/
  | ended
  /-- A fault ended the run. A step reports it as the outcome `fault`, see `statusAfter` (log 14). -/
  | faulted (cause : Fault)
  deriving DecidableEq, Repr

/-- A segment (R41): its length and its words, listed by offset in canonical form (`Segment.wf`): offsets
strictly rising and below the length, no word listed that is 0. An unlisted offset reads 0. -/
structure Segment where
  len : Word
  cells : List (Nat × Word)
  deriving DecidableEq, Repr

/-- A slot of the segment table (R40). -/
inductive Slot where
  | live (seg : Segment)
  | tombstone
  deriving DecidableEq, Repr

/-- The Address Space (R40). Slot `id` of the table is entry `id` of `slots`, so the table length is the
list's length; the head of `pool` is the top of the recycle stack. -/
structure Memory where
  slots : List Slot
  pool : List Word
  deriving DecidableEq, Repr

/-- The input source as CORE sees it (R33, R163, R165): the answers it has given and CORE has not taken, and
what it does after them. The remaining input of a finite `INPUT_STREAM` is `pending` with the tail
`exhausted`, of an infinite one `pending` and then the bytes of an endless stream (D9, logs 9, 28). With
nothing pending and the tail `unanswered` the source has not answered yet. A listed answer is a full word
so that the defensive check of R164 has something to check (log 11). -/
structure InputSource where
  pending : List Word
  tail : InputTail
  deriving DecidableEq, Repr

/-- Everything the spec gives the machine (R20 to R34) and its environment (R4). -/
structure State where
  /-- x[0] .. x[7] (R20). -/
  regs : Vector Word 8
  /-- Index of the next instruction word in segment 0 (R25). -/
  pc : Word
  /-- Number of words of segment 0 (R26). -/
  bound : Word
  run : RunState
  mem : Memory
  /-- Bytes output so far, in order (R33, R160). -/
  out : List Byte
  input : InputSource
  /-- `MEM_CAPACITY` as plain data: the Address Space's answers to the coming questions whether it can
  hold n more words, one per question, and yes past the end (D8, log 7). -/
  capacity : List Bool
  config : Config
  /-- `Teardown` has released the Address Space's storage (R53, log 17). -/
  released : Bool
  deriving DecidableEq, Repr

/-- The state after reset. CORE has no reset apart from `Load` (R200): this is the state after loading
the program of no words (log 21), with the open parameters at the values of Defaults.lean. -/
def State.reset : State where
  regs := initRegs
  pc := 0
  bound := 0
  run := .running
  mem := { slots := [.live { len := 0, cells := [] }], pool := [] }
  out := []
  input := { pending := initInputPending, tail := initInputTail }
  capacity := initCapacity
  config := initConfig
  released := false

end Sys2Proof.Machine
end

