-- ==== Sys2Proof/Machine/Flags.lean ====
section
/-! DEFINITION. CORE has no flags, condition codes or predicates (spec/10_state.md R29) and no
instruction computes one. What it does have are the tests instructions make on a whole register; they
stand here. -/

namespace Sys2Proof.Machine

/-- The condition of conditional-move: the register is not zero (R110). -/
def isNonzero (v : Word) : Bool := decide (v ≠ 0)

/-- The range test of output and of an input answer: `v >= 256` (R161, R164). -/
def exceedsByte (v : Word) : Bool := decide (256 ≤ v.toNat)

end Sys2Proof.Machine
end

