-- ==== Sys2Proof/Machine/Memory.lean ====
section
/-! DEFINITION. The Address Space: segments, validity and the transactions of spec/20_memory.md R44 to
R53, each a function of the memory that answers a result or the fault it raises. -/

namespace Sys2Proof.Machine

/-- What an unlisted word of a segment reads as: "all initialized to zero at creation" (R41). -/
def unlistedWord : Word := 0

def readCells : List (Nat × Word) → Nat → Word
  | [], _ => unlistedWord
  | (k, v) :: cells, off => if k = off then v else readCells cells off

/-- Writes one word and keeps the canonical form: a word equal to what an unlisted offset reads as is
not listed. -/
def writeCells : List (Nat × Word) → Nat → Word → List (Nat × Word)
  | [], off, v => if v = unlistedWord then [] else [(off, v)]
  | (k, u) :: cells, off, v =>
    if off < k then
      if v = unlistedWord then (k, u) :: cells else (off, v) :: (k, u) :: cells
    else if off = k then
      if v = unlistedWord then cells else (off, v) :: cells
    else (k, u) :: writeCells cells off v

/-- The canonical form from offset `lo` on: offsets strictly rising, below `len`, none unlisted in
value. -/
def cellsWf (len : Nat) : Nat → List (Nat × Word) → Bool
  | _, [] => true
  | lo, (k, v) :: cells =>
    decide (lo ≤ k) && decide (k < len) && decide (v ≠ unlistedWord) && cellsWf len (k + 1) cells

/-- The cells of the words `ws` laid from offset `off` on. -/
def cellsOfWords : Nat → List Word → List (Nat × Word)
  | _, [] => []
  | off, w :: ws =>
    if w = unlistedWord then cellsOfWords (off + 1) ws else (off, w) :: cellsOfWords (off + 1) ws

/-- A new segment of n words, each 0 (R41, R48). -/
def Segment.zeros (n : Word) : Segment := { len := n, cells := [] }

def Segment.ofWords (ws : List Word) : Segment :=
  { len := BitVec.ofNat 32 ws.length, cells := cellsOfWords 0 ws }

/-- Word `off` of a segment; meaningful for `off < len`. -/
def Segment.get (g : Segment) (off : Word) : Word := readCells g.cells off.toNat

/-- "mutation is in place": one word changes, the length does not (R41). -/
def Segment.set (g : Segment) (off v : Word) : Segment :=
  { g with cells := writeCells g.cells off.toNat v }

/-- The canonical form of a segment. -/
def Segment.wf (g : Segment) : Bool := cellsWf g.len.toNat 0 g.cells

def Slot.wf : Slot → Bool
  | .live g => g.wf
  | .tombstone => true

/-- Every live segment is in canonical form, so equal memories are equal data. -/
def Memory.wf (m : Memory) : Bool := m.slots.all Slot.wf

/-- The table length (R40, R43). -/
def Memory.tableLen (m : Memory) : Nat := m.slots.length

/-- The live segment an identifier names, if it is valid (R44). -/
def Memory.segment? (m : Memory) (id : Word) : Option Segment :=
  match m.slots[id.toNat]? with
  | some (.live g) => some g
  | _ => none

/-- `valid(id)`: id < tableLen and the slot is not tombstoned (R44). -/
def Memory.valid (m : Memory) (id : Word) : Bool := (m.segment? id).isSome

/-- The word at an address, none where the access is invalid: the identifier is not valid or the offset
is not below the length (R46, conflict C2). -/
def Memory.word? (m : Memory) (id off : Word) : Option Word :=
  match m.segment? id with
  | some g => if off < g.len then some (g.get off) else none
  | none => none

def Memory.putSlot (m : Memory) (id : Word) (slot : Slot) : Memory :=
  { m with slots := m.slots.set id.toNat slot }

/-- `MemRead((id, off), 1)` (R46). -/
def Memory.read (m : Memory) (id off : Word) : Except Fault Word :=
  match m.word? id off with
  | some w => .ok w
  | none => .error (.invalidSegmentAccess id off)

/-- `MemWrite((id, off), 1, v)` (R47). -/
def Memory.write (m : Memory) (id off v : Word) : Except Fault Memory :=
  match m.segment? id with
  | none => .error (.invalidSegmentAccess id off)
  | some g =>
    if off < g.len then .ok (m.putSlot id (.live (g.set off v)))
    else .error (.invalidSegmentAccess id off)

/-- `SegAlloc(n)` (R48): the last freed identifier if the pool has one, else the old table length.
`canHold` is the Address Space's answer for n more words (D8). -/
def Memory.alloc (m : Memory) (canHold : Bool) (n : Word) : Except Fault (Word × Memory) :=
  if canHold then
    match m.pool with
    | id :: rest => .ok (id, { m with pool := rest }.putSlot id (.live (Segment.zeros n)))
    | [] =>
      if m.tableLen < Config.maxSlots then
        .ok (BitVec.ofNat 32 m.tableLen, { m with slots := m.slots ++ [.live (Segment.zeros n)] })
      else .error (.resourceExhausted n)
  else .error (.resourceExhausted n)

/-- `SegFree(id)` (R50): identifier 0 is refused, then an invalid one (D6, DESIGN CHOICE of the spec,
log 5, safe); else the slot is tombstoned and the identifier goes on top of the pool. -/
def Memory.free (m : Memory) (id : Word) : Except Fault Memory :=
  if id = 0 then .error (.unmapProgramSegment id)
  else if m.valid id then .ok { m.putSlot id .tombstone with pool := id :: m.pool }
  else .error (.invalidSegmentAccess id 0)

/-- What `SegReplace0` answers (R52). -/
inductive Replacement where
  | noReplace
  | replaced (n : Word)
  deriving DecidableEq, Repr

/-- `SegReplace0(id)` (R52): nothing for identifier 0, else a copy of segment `id` becomes segment 0.
An invalid identifier faults (D7, conflict C3, log 6, safe). Segments are values, so the copy is
independent (R64). -/
def Memory.replace0 (m : Memory) (canHold : Bool) (id : Word) :
    Except Fault (Replacement × Memory) :=
  if id = 0 then .ok (.noReplace, m)
  else
    match m.segment? id with
    | none => .error (.invalidSegmentAccess id 0)
    | some g =>
      if canHold then .ok (.replaced g.len, m.putSlot 0 (.live g))
      else .error (.resourceExhausted g.len)

end Sys2Proof.Machine
end

