-- ==== Sys2Proof/Machine/Ops.lean ====
section
/-! DEFINITION. The operations the meanings are written over: register access (spec/00_scope.md R10),
the end of an instruction (spec/40_execution_loop.md R95), raising a fault (spec/60_exceptions.md R181),
the capacity question, fetch, Teardown and the byte streams. -/

namespace Sys2Proof.Machine

/-- What a step or a meaning answers. -/
abbrev Result := Host.Outcome State Fault Refusal

/-- `x[i]` (R10). Every register is ordinary, register 0 included (R21). -/
def State.reg (s : State) (r : Reg) : Word := s.regs[r]

/-- `x[i] <- v` (R10, R21). -/
def State.setReg (s : State) (r : Reg) (v : Word) : State := { s with regs := s.regs.set r v }

/-- `raise F(info)` (R181): the run ends with the fault and nothing else of the instruction happens. There
is no trap entry, no saved state and no return (R186, R188), so nothing but the fault is answered. -/
def raise (f : Fault) : Result := .fault f

/-- The end of an instruction other than halt and load-program: pc advances by one (R95). -/
def retire (s : State) : Result := .next { s with pc := s.pc + 1 }

/-- The Address Space's answer to the next capacity question (R48, R52, D8), log 7. -/
def State.canHold (s : State) : Bool := s.capacity.headD true

/-- The answer just given is used up. -/
def State.capacityAsked (s : State) : State := { s with capacity := s.capacity.tail }

/-- `Fetch(pc)`: the word at offset pc of segment 0 as it is now (R92). -/
def State.fetch (s : State) : Except Fault Word := s.mem.read 0 s.pc

/-- The instruction word at pc, for the report of a fault (R181, log 16). -/
def State.currentWord (s : State) : Option Word := s.mem.word? 0 s.pc

/-- `Teardown` (R53): the storage of every segment, the table and the pool is released. It is recorded
as released; the table's contents stay readable as "the Address Space at that moment" (R99), log 17. -/
def State.teardown (s : State) : State := { s with released := true }

/-- `OutByte(b)` (R160): always succeeds at once (D18, log 12). -/
def State.outByte (s : State) (b : Byte) : State := { s with out := s.out ++ [b] }

/-- What `InByte()` answers (R163). -/
inductive InAnswer where
  | byte (v : Word)
  | endOfInput
  deriving DecidableEq, Repr

/-- `InByte()` (R163): the next answer and the source after it, none while the source has not answered
(R165). An exhausted source answers end of input every time (D9, log 9), an endless one its next byte
(D9, log 28). -/
def InputSource.take (src : InputSource) : Option (InAnswer × InputSource) :=
  match src.pending with
  | v :: rest => some (.byte v, { src with pending := rest })
  | [] =>
    match src.tail with
    | .exhausted => some (.endOfInput, src)
    | .unanswered => none
    | .endless stream position =>
      some (.byte ((Config.inputStream stream position).setWidth 32),
        { src with tail := .endless stream (position + 1) })

/-- The spec's cause code of a fault (R182, D11). -/
def faultCode : Fault → Nat
  | .divideByZero _ _ => 1
  | .invalidSegmentAccess _ _ => 2
  | .unmapProgramSegment _ => 3
  | .outputOutOfRange _ => 4
  | .dispatchFault _ _ _ => 5
  | .inputOutOfRange _ => 6
  | .resourceExhausted _ => 7
  | .pcOutOfRange _ _ => 8

end Sys2Proof.Machine
end

