-- ==== Sys2Proof/Machine/Operands.lean ====
section
/-! DEFINITION. The operand forms: registers, the segment address of a load and of a store, the
immediate (spec/42_segment_ops.md R130, R131; spec/30_encoding.md R77), and which registers each
instruction reads and writes (spec/10_state.md R22). -/

namespace Sys2Proof.Machine

/-- An address `(id, off)`: segment identifier and word offset (R45). -/
structure SegAddr where
  id : Word
  off : Word
  deriving DecidableEq, Repr

/-- The machine's one addressing mode: identifier and offset both from registers, "with no displacement
and no base update" (R130). -/
def State.segAddr (s : State) (idReg offReg : Reg) : SegAddr := ⟨s.reg idReg, s.reg offReg⟩

/-- The address segment-load reads: (x[B], x[C]) (R130). -/
def loadAddress (b c : Reg) (s : State) : SegAddr := s.segAddr b c

/-- The address segment-store writes: (x[A], x[B]) (R131). -/
def storeAddress (a b : Reg) (s : State) : SegAddr := s.segAddr a b

/-- `imm(w)`: the 25-bit immediate zero-extended, never sign-extended or scaled (R77). -/
def immediateValue (imm : BitVec 25) : Word := BitVec.ofNat 32 imm.toNat

/-- The registers an instruction reads (R22). -/
def regsRead : Instr → List Reg
  | .conditionalMove _ b c => [b, c]
  | .segmentLoad _ b c => [b, c]
  | .segmentStore a b c => [a, b, c]
  | .add _ b c => [b, c]
  | .multiply _ b c => [b, c]
  | .divide _ b c => [b, c]
  | .bitwiseNand _ b c => [b, c]
  | .halt => []
  | .mapSegment _ c => [c]
  | .unmapSegment c => [c]
  | .output c => [c]
  | .input _ => []
  | .loadProgram b c => [b, c]
  | .loadValue _ _ => []

/-- The register an instruction may write, at most one (R22, R24). -/
def regWritten : Instr → Option Reg
  | .conditionalMove a _ _ => some a
  | .segmentLoad a _ _ => some a
  | .segmentStore _ _ _ => none
  | .add a _ _ => some a
  | .multiply a _ _ => some a
  | .divide a _ _ => some a
  | .bitwiseNand a _ _ => some a
  | .halt => none
  | .mapSegment b _ => some b
  | .unmapSegment _ => none
  | .output _ => none
  | .input c => some c
  | .loadProgram _ _ => none
  | .loadValue a _ => some a

end Sys2Proof.Machine
end

