-- ==== Sys2Proof/Machine/Arith.lean ====
section
/-! DEFINITION. Conditional move, arithmetic and logic (spec/41_arith_logic.md). Operands are read as
unsigned integers, the result is computed exactly and reduced modulo 2^32 where the rule says so. -/

namespace Sys2Proof.Machine

/-- `(x + y) mod 2^32` (R111). -/
def addMod (x y : Word) : Word := BitVec.ofNat 32 (x.toNat + y.toNat)

/-- `(x * y) mod 2^32` (R112). -/
def mulMod (x y : Word) : Word := BitVec.ofNat 32 (x.toNat * y.toNat)

/-- `floor(x / y)`, for y other than 0 (R113). -/
def divFloor (x y : Word) : Word := BitVec.ofNat 32 (x.toNat / y.toNat)

/-- `~(x & y)`, all 32 bits (R114). -/
def nand (x y : Word) : Word := ~~~(x &&& y)

/-- conditional-move (R110). -/
def execConditionalMove (a b c : Reg) (s : State) : Result :=
  if isNonzero (s.reg c) then retire (s.setReg a (s.reg b)) else retire s

/-- add (R111). -/
def execAdd (a b c : Reg) (s : State) : Result := retire (s.setReg a (addMod (s.reg b) (s.reg c)))

/-- multiply (R112). -/
def execMultiply (a b c : Reg) (s : State) : Result :=
  retire (s.setReg a (mulMod (s.reg b) (s.reg c)))

/-- divide (R113): a zero divisor raises DivideByZero, whatever the dividend. -/
def execDivide (a b c : Reg) (s : State) : Result :=
  if s.reg c = 0 then raise (.divideByZero s.pc s.currentWord)
  else retire (s.setReg a (divFloor (s.reg b) (s.reg c)))

/-- bitwise-nand (R114). -/
def execBitwiseNand (a b c : Reg) (s : State) : Result :=
  retire (s.setReg a (nand (s.reg b) (s.reg c)))

end Sys2Proof.Machine
end

