-- ==== Sys2Proof/Machine/Control.lean ====
section
/-! DEFINITION. halt and load-program (spec/43_control.md), the two instructions after which pc does not
advance by one. -/

namespace Sys2Proof.Machine

/-- halt (R150): Teardown, then the run has halted; pc is not advanced. -/
def execHalt (s : State) : Result := .next { s.teardown with run := .halted }

/-- load-program (R151): a copy of segment x[B] becomes segment 0 unless x[B] = 0, pc becomes x[C], and
bound becomes the new length if a replacement occurred. A capacity question is asked exactly when a
valid segment is to be copied (R52). -/
def execLoadProgram (b c : Reg) (s : State) : Result :=
  match s.mem.replace0 s.canHold (s.reg b) with
  | .ok (.noReplace, m) => .next { s with mem := m, pc := s.reg c }
  | .ok (.replaced n, m) => .next { s.capacityAsked with mem := m, pc := s.reg c, bound := n }
  | .error f => raise f

end Sys2Proof.Machine
end

