-- ==== Sys2Proof/Machine/InOut.lean ====
section
/-! DEFINITION. output and input (spec/44_io.md), and what the host can do to the input source. -/

namespace Sys2Proof.Machine

/-- output (R161): a value above 255 faults, with no truncation. -/
def execOutput (c : Reg) (s : State) : Result :=
  if exceedsByte (s.reg c) then raise (.outputOutOfRange (s.reg c))
  else retire (s.outByte (BitVec.ofNat 8 (s.reg c).toNat))

/-- input (R164). While the source has not answered, the instruction waits: nothing changes and the next
step finds it again (R165; DEDUCED form of the wait, log 10, safe). -/
def execInput (c : Reg) (s : State) : Result :=
  match s.input.take with
  | none => .next s
  | some (.byte v, src) =>
    if exceedsByte v then raise (.inputOutOfRange v)
    else retire ({ s with input := src }.setReg c v)
  | some (.endOfInput, src) => retire ({ s with input := src }.setReg c 0xFFFFFFFF)

/-- The source with one more answer. Only a source that may still answer takes it: an exhausted stream
gives no more (D9), an endless one has all its bytes (log 9). -/
def InputSource.supply (src : InputSource) (v : Word) : InputSource :=
  match src.tail with
  | .unanswered => { src with pending := src.pending ++ [v] }
  | .exhausted => src
  | .endless _ _ => src

/-- The source exhausted after what it has supplied; an endless one has no end. -/
def InputSource.close (src : InputSource) : InputSource :=
  match src.tail with
  | .unanswered => { src with tail := .exhausted }
  | .exhausted => src
  | .endless _ _ => src

/-- The host supplies one more answer (R163). -/
def State.supplyInput (s : State) (v : Word) : State := { s with input := s.input.supply v }

/-- The host reports that the source is exhausted after what it has supplied (R163). -/
def State.endInput (s : State) : State := { s with input := s.input.close }

/-- What the host does to the machine between two steps (R4, R163, R165). -/
inductive HostEvent where
  | quiet
  | answer (v : Word)
  | endOfInput
  deriving DecidableEq, Repr

/-- The state after what the host does. -/
def State.afterEvent (s : State) (e : HostEvent) : State :=
  match e with
  | .quiet => s
  | .answer v => s.supplyInput v
  | .endOfInput => s.endInput

end Sys2Proof.Machine
end

