-- ==== Sys2Proof/Machine/LoadValue.lean ====
section
/-! DEFINITION. load-value (spec/45_load_value.md). -/

namespace Sys2Proof.Machine

/-- load-value (R170). -/
def execLoadValue (a : Reg) (imm : BitVec 25) (s : State) : Result :=
  retire (s.setReg a (immediateValue imm))

end Sys2Proof.Machine
end

