-- ==== Sys2Proof/Machine/Segments.lean ====
section
/-! DEFINITION. Segment operations (spec/42_segment_ops.md). Every source register is read before
anything is written (spec/00_scope.md R12). -/

namespace Sys2Proof.Machine

/-- segment-load (R130). -/
def execSegmentLoad (a b c : Reg) (s : State) : Result :=
  match s.mem.read (loadAddress b c s).id (loadAddress b c s).off with
  | .ok w => retire (s.setReg a w)
  | .error f => raise f

/-- segment-store (R131). -/
def execSegmentStore (a b c : Reg) (s : State) : Result :=
  match s.mem.write (storeAddress a b s).id (storeAddress a b s).off (s.reg c) with
  | .ok m => retire { s with mem := m }
  | .error f => raise f

/-- map-segment (R132): one capacity question is asked (R48, D8). -/
def execMapSegment (b c : Reg) (s : State) : Result :=
  match s.mem.alloc s.canHold (s.reg c) with
  | .ok (id, m) => retire ({ s.capacityAsked with mem := m }.setReg b id)
  | .error f => raise f

/-- unmap-segment (R133). -/
def execUnmapSegment (c : Reg) (s : State) : Result :=
  if s.reg c = 0 then raise (.unmapProgramSegment (s.reg c))
  else
    match s.mem.free (s.reg c) with
    | .ok m => retire { s with mem := m }
    | .error f => raise f

end Sys2Proof.Machine
end

