-- ==== Sys2Proof/WellFormed.lean ====
section
/-! DEFINITION. When a source line is well-formed. An `Instr` needs no check: its register fields are
`Fin 8` and its immediate is 25 bits wide, so every value of the type is an instruction (R23, R87). The
checks stand on the assembler's source line (spec/30_encoding.md R85): the operands have the shape of
the syntax table, no register is outside r0 to r7, no immediate is outside 0 to 33554431. -/

namespace Sys2Proof

/-- How many register operands the syntax of R85 gives an operation. -/
def Operation.registerCount : Operation → Nat
  | .conditionalMove | .segmentLoad | .segmentStore => 3
  | .add | .multiply | .divide | .bitwiseNand => 3
  | .halt => 0
  | .mapSegment | .loadProgram => 2
  | .unmapSegment | .output | .input => 1
  | .loadValue => 1

/-- Whether the syntax of R85 ends with an immediate: load-value only. -/
def Operation.takesImmediate : Operation → Bool
  | .loadValue => true
  | _ => false

def SourceOperand.isReg : SourceOperand → Bool
  | .reg _ => true
  | .imm _ => false

/-- Shape: the operation's register operands, then its immediate where it takes one (R85). -/
def SourceLine.shapeOk (l : SourceLine) : Bool :=
  l.operands.map SourceOperand.isReg ==
    List.replicate l.op.registerCount true ++ (if l.op.takesImmediate then [false] else [])

/-- "An assembler must refuse ... a register outside r0 to r7" (R85). -/
def SourceOperand.registerOk : SourceOperand → Bool
  | .reg n => decide (n < 8)
  | .imm _ => true

/-- "An assembler must refuse an immediate outside 0 to 33554431" (R85). -/
def SourceOperand.immediateOk : SourceOperand → Bool
  | .reg _ => true
  | .imm n => decide (n ≤ 33554431)

def SourceLine.registersOk (l : SourceLine) : Bool := l.operands.all SourceOperand.registerOk

def SourceLine.immediatesOk (l : SourceLine) : Bool := l.operands.all SourceOperand.immediateOk

/-- A line the assembler accepts. -/
def SourceLine.wf (l : SourceLine) : Bool := l.shapeOk && l.registersOk && l.immediatesOk

end Sys2Proof
end

