-- ==== Sys2Proof/Decode.lean ====
section
/-! DEFINITION. The decoder DEC, the encoder and the assembler, all over the one opcode table
`Operation.opcode` (spec/30_encoding.md). Decoding is total: a word decodes to an instruction or is
rejected as `illegal` with its opcode (R82, R87), bytes that do not make a word are rejected as
`truncated`. -/

namespace Sys2Proof

/-- `OPCODE_ASSIGNMENT` (R80, R81, D1): the one table of opcode numbers.
PRESUMED for 0 to 12 (the spec marks them as general knowledge), log 1; unsafe if wrong. -/
def Operation.opcode : Operation → BitVec 4
  | .conditionalMove => 0
  | .segmentLoad => 1
  | .segmentStore => 2
  | .add => 3
  | .multiply => 4
  | .divide => 5
  | .bitwiseNand => 6
  | .halt => 7
  | .mapSegment => 8
  | .unmapSegment => 9
  | .output => 10
  | .input => 11
  | .loadProgram => 12
  | .loadValue => 13

/-- The operation a 4-bit opcode selects; none for 14 and 15 (R82, R94). -/
def operationOf (op : BitVec 4) : Option Operation :=
  Operation.all.find? fun o => o.opcode == op

/-- `w[hi:lo]` (R8): the unsigned value of bits hi down to lo. -/
def bits (w : Word) (hi lo : Nat) : Nat := w.toNat / 2 ^ lo % 2 ^ (hi - lo + 1)

/-- `opcode(w) = w[31:28]` (R72). -/
def fieldOpcode (w : Word) : BitVec 4 := BitVec.ofNat 4 (bits w 31 28)

/-- `A(w) = w[8:6]` (R73). -/
def fieldA (w : Word) : Reg := Fin.ofNat 8 (bits w 8 6)

/-- `A_imm(w) = w[27:25]` (R74). -/
def fieldAImm (w : Word) : Reg := Fin.ofNat 8 (bits w 27 25)

/-- `B(w) = w[5:3]` (R75). -/
def fieldB (w : Word) : Reg := Fin.ofNat 8 (bits w 5 3)

/-- `C(w) = w[2:0]` (R76). -/
def fieldC (w : Word) : Reg := Fin.ofNat 8 (bits w 2 0)

/-- `w[24:0]` (R77), before its zero-extension. -/
def fieldImm (w : Word) : BitVec 25 := BitVec.ofNat 25 (bits w 24 0)

/-- The instruction of an operation with the fields it reads taken from the word (R78, R80). Bits no
field names are ignored (R79, D2): DESIGN CHOICE of the spec, log 2; unsafe if the reference rejects
such words. -/
def instrOf (o : Operation) (w : Word) : Instr :=
  match o with
  | .conditionalMove => .conditionalMove (fieldA w) (fieldB w) (fieldC w)
  | .segmentLoad => .segmentLoad (fieldA w) (fieldB w) (fieldC w)
  | .segmentStore => .segmentStore (fieldA w) (fieldB w) (fieldC w)
  | .add => .add (fieldA w) (fieldB w) (fieldC w)
  | .multiply => .multiply (fieldA w) (fieldB w) (fieldC w)
  | .divide => .divide (fieldA w) (fieldB w) (fieldC w)
  | .bitwiseNand => .bitwiseNand (fieldA w) (fieldB w) (fieldC w)
  | .halt => .halt
  | .mapSegment => .mapSegment (fieldB w) (fieldC w)
  | .unmapSegment => .unmapSegment (fieldC w)
  | .output => .output (fieldC w)
  | .input => .input (fieldC w)
  | .loadProgram => .loadProgram (fieldB w) (fieldC w)
  | .loadValue => .loadValue (fieldAImm w) (fieldImm w)

/-- Why bytes or a word decode to no instruction. -/
inductive DecodeError where
  /-- Opcode 14 or 15: `Illegal(opcode)` of R87, raised as DispatchFault by the loop (R82). -/
  | illegal (opcode : BitVec 4)
  /-- Fewer than four bytes: no instruction word (R70). -/
  | truncated
  deriving DecidableEq, Repr

/-- The decoder on a word: pure, stateless, total (R87). -/
def decode (w : Word) : Except DecodeError Instr :=
  match operationOf (fieldOpcode w) with
  | some o => .ok (instrOf o w)
  | none => .error (.illegal (fieldOpcode w))

/-- Four bytes as a word, the first the most significant (R54). -/
def wordOfBytes (b0 b1 b2 b3 : Byte) : Word :=
  BitVec.ofNat 32 (2 ^ 24 * b0.toNat + 2 ^ 16 * b1.toNat + 2 ^ 8 * b2.toNat + b3.toNat)

/-- The decoder on a program file's bytes: the first instruction and the rest. -/
def decodeBytes : List Byte → Except DecodeError (Instr × List Byte)
  | b0 :: b1 :: b2 :: b3 :: rest =>
    (decode (wordOfBytes b0 b1 b2 b3)).map fun i => (i, rest)
  | _ => .error .truncated

/-! ### Encoder -/

/-- A three-register word with every unused bit 0; the fields do not overlap, so the sum is R85's
bitwise OR. -/
def threeRegisterWord (o : Operation) (a b c : Reg) : Word :=
  BitVec.ofNat 32 (2 ^ 28 * o.opcode.toNat + 2 ^ 6 * a.val + 2 ^ 3 * b.val + c.val)

/-- An immediate-load word (R71, R85). -/
def immediateWord (o : Operation) (a : Reg) (imm : BitVec 25) : Word :=
  BitVec.ofNat 32 (2 ^ 28 * o.opcode.toNat + 2 ^ 25 * a.val + imm.toNat)

/-- The word of an instruction, fields not listed 0 (R85). -/
def encode (i : Instr) : Word :=
  match i with
  | .conditionalMove a b c => threeRegisterWord .conditionalMove a b c
  | .segmentLoad a b c => threeRegisterWord .segmentLoad a b c
  | .segmentStore a b c => threeRegisterWord .segmentStore a b c
  | .add a b c => threeRegisterWord .add a b c
  | .multiply a b c => threeRegisterWord .multiply a b c
  | .divide a b c => threeRegisterWord .divide a b c
  | .bitwiseNand a b c => threeRegisterWord .bitwiseNand a b c
  | .halt => threeRegisterWord .halt 0 0 0
  | .mapSegment b c => threeRegisterWord .mapSegment 0 b c
  | .unmapSegment c => threeRegisterWord .unmapSegment 0 0 c
  | .output c => threeRegisterWord .output 0 0 c
  | .input c => threeRegisterWord .input 0 0 c
  | .loadProgram b c => threeRegisterWord .loadProgram 0 b c
  | .loadValue a imm => immediateWord .loadValue a imm

/-- A word's four bytes in program-file order, most significant first (R54). -/
def bytesOfWord (w : Word) : List Byte :=
  [BitVec.ofNat 8 (bits w 31 24), BitVec.ofNat 8 (bits w 23 16), BitVec.ofNat 8 (bits w 15 8),
    BitVec.ofNat 8 (bits w 7 0)]

/-! ### Assembler (R85, D13) -/

/-- An instruction written as a source line. -/
def Instr.toSource : Instr → SourceLine
  | .conditionalMove a b c => ⟨.conditionalMove, [.reg a, .reg b, .reg c]⟩
  | .segmentLoad a b c => ⟨.segmentLoad, [.reg a, .reg b, .reg c]⟩
  | .segmentStore a b c => ⟨.segmentStore, [.reg a, .reg b, .reg c]⟩
  | .add a b c => ⟨.add, [.reg a, .reg b, .reg c]⟩
  | .multiply a b c => ⟨.multiply, [.reg a, .reg b, .reg c]⟩
  | .divide a b c => ⟨.divide, [.reg a, .reg b, .reg c]⟩
  | .bitwiseNand a b c => ⟨.bitwiseNand, [.reg a, .reg b, .reg c]⟩
  | .halt => ⟨.halt, []⟩
  | .mapSegment b c => ⟨.mapSegment, [.reg b, .reg c]⟩
  | .unmapSegment c => ⟨.unmapSegment, [.reg c]⟩
  | .output c => ⟨.output, [.reg c]⟩
  | .input c => ⟨.input, [.reg c]⟩
  | .loadProgram b c => ⟨.loadProgram, [.reg b, .reg c]⟩
  | .loadValue a imm => ⟨.loadValue, [.reg a, .imm imm.toNat]⟩

/-- The instruction an operation and operands of the right shape name. -/
def instrOfSource (op : Operation) (operands : List SourceOperand) : Option Instr :=
  match op, operands with
  | .conditionalMove, [.reg a, .reg b, .reg c] =>
    some (.conditionalMove (Fin.ofNat 8 a) (Fin.ofNat 8 b) (Fin.ofNat 8 c))
  | .segmentLoad, [.reg a, .reg b, .reg c] =>
    some (.segmentLoad (Fin.ofNat 8 a) (Fin.ofNat 8 b) (Fin.ofNat 8 c))
  | .segmentStore, [.reg a, .reg b, .reg c] =>
    some (.segmentStore (Fin.ofNat 8 a) (Fin.ofNat 8 b) (Fin.ofNat 8 c))
  | .add, [.reg a, .reg b, .reg c] => some (.add (Fin.ofNat 8 a) (Fin.ofNat 8 b) (Fin.ofNat 8 c))
  | .multiply, [.reg a, .reg b, .reg c] =>
    some (.multiply (Fin.ofNat 8 a) (Fin.ofNat 8 b) (Fin.ofNat 8 c))
  | .divide, [.reg a, .reg b, .reg c] =>
    some (.divide (Fin.ofNat 8 a) (Fin.ofNat 8 b) (Fin.ofNat 8 c))
  | .bitwiseNand, [.reg a, .reg b, .reg c] =>
    some (.bitwiseNand (Fin.ofNat 8 a) (Fin.ofNat 8 b) (Fin.ofNat 8 c))
  | .halt, [] => some .halt
  | .mapSegment, [.reg b, .reg c] => some (.mapSegment (Fin.ofNat 8 b) (Fin.ofNat 8 c))
  | .unmapSegment, [.reg c] => some (.unmapSegment (Fin.ofNat 8 c))
  | .output, [.reg c] => some (.output (Fin.ofNat 8 c))
  | .input, [.reg c] => some (.input (Fin.ofNat 8 c))
  | .loadProgram, [.reg b, .reg c] => some (.loadProgram (Fin.ofNat 8 b) (Fin.ofNat 8 c))
  | .loadValue, [.reg a, .imm n] => some (.loadValue (Fin.ofNat 8 a) (BitVec.ofNat 25 n))
  | _, _ => none

/-- The assembler: a well-formed line's word; an ill-formed line is refused (R85). -/
def assemble (l : SourceLine) : Option Word :=
  if l.wf then (instrOfSource l.op l.operands).map encode else none

/-! ### Assembler text (R85, D13) -/

/-- UMSPEC's operation names as mnemonics (R85). -/
def Operation.mnemonic : Operation → List Char
  | .conditionalMove => "conditional-move".toList
  | .segmentLoad => "segment-load".toList
  | .segmentStore => "segment-store".toList
  | .add => "add".toList
  | .multiply => "multiply".toList
  | .divide => "divide".toList
  | .bitwiseNand => "bitwise-nand".toList
  | .halt => "halt".toList
  | .mapSegment => "map-segment".toList
  | .unmapSegment => "unmap-segment".toList
  | .output => "output".toList
  | .input => "input".toList
  | .loadProgram => "load-program".toList
  | .loadValue => "load-value".toList

/-- The decimal digits of `n` before `rest`; `fuel` above `n` is enough. -/
def decimalBefore : Nat → Nat → List Char → List Char
  | 0, _, rest => rest
  | fuel + 1, n, rest =>
    let rest := Char.ofNat (48 + n % 10) :: rest
    if n < 10 then rest else decimalBefore fuel (n / 10) rest

def decimal (n : Nat) : List Char := decimalBefore (n + 1) n []

/-- A register is written `r` and its number, an immediate as a decimal number (R85). -/
def SourceOperand.text : SourceOperand → List Char
  | .reg n => 'r' :: decimal n
  | .imm n => decimal n

/-- Operands after a mnemonic: a space before the first, a comma and a space before each other. -/
def operandsText : List SourceOperand → List Char
  | [] => []
  | [x] => ' ' :: x.text
  | x :: y :: rest => ' ' :: x.text ++ ',' :: operandsText (y :: rest)

/-- A source line as R85 writes it. -/
def SourceLine.text (l : SourceLine) : List Char := l.op.mnemonic ++ operandsText l.operands

def digitValue (c : Char) : Option Nat :=
  if 48 ≤ c.toNat ∧ c.toNat ≤ 57 then some (c.toNat - 48) else none

/-- The number the digits make after those of value `acc`; none at a character that is no digit. -/
def numberAfter : Nat → List Char → Option Nat
  | acc, [] => some acc
  | acc, c :: cs =>
    match digitValue c with
    | some d => numberAfter (10 * acc + d) cs
    | none => none

/-- A decimal number. Leading zeros are accepted, on which R85 is silent: DESIGN CHOICE, log 24, safe. -/
def parseNumber : List Char → Option Nat
  | [] => none
  | c :: cs => numberAfter 0 (c :: cs)

def parseOperand : List Char → Option SourceOperand
  | [] => none
  | c :: cs =>
    if c = 'r' then (parseNumber cs).map .reg else (parseNumber (c :: cs)).map .imm

/-- The pieces between commas. -/
def splitCommas : List Char → List (List Char)
  | [] => [[]]
  | c :: cs =>
    if c = ',' then [] :: splitCommas cs
    else
      match splitCommas cs with
      | [] => [[c]]
      | piece :: pieces => (c :: piece) :: pieces

def parseOperands : List (List Char) → Option (List SourceOperand)
  | [] => some []
  | piece :: pieces =>
    match parseOperand (piece.dropWhile (· == ' ')), parseOperands pieces with
    | some x, some xs => some (x :: xs)
    | _, _ => none

/-- A line of text as a mnemonic and its operands. R85 and D13 say nothing of spaces beyond those of the
syntax table. DESIGN CHOICE, log 24, safe: one or more spaces may stand between the mnemonic and the first
operand, any number before each other operand and after a mnemonic that no operand follows, and none
before the mnemonic or after an operand. -/
def parseLine (text : List Char) : Option SourceLine :=
  match Operation.all.find? fun o => o.mnemonic == text.takeWhile (· != ' ') with
  | none => none
  | some op =>
    match (text.dropWhile (· != ' ')).dropWhile (· == ' ') with
    | [] => some ⟨op, []⟩
    | c :: cs => (parseOperands (splitCommas (c :: cs))).map fun operands => ⟨op, operands⟩

/-- The assembler on text. -/
def assembleText (text : List Char) : Option Word :=
  match parseLine text with
  | some l => assemble l
  | none => none

/-! ### The opcode table's numbering of bits -/

/-- The word whose lowest `nbits` bits are those of `w`, every bit above them 0. -/
def tableWord (nbits w : Nat) : Word := BitVec.ofNat 32 (w % 2 ^ nbits)

/-- The instruction the decoder reads from a word numbered as opcode_table.json numbers it: bit 0 is
the least significant bit of the one word (R8). The word is laid out as the program file stores it. -/
def decodeTableWord (nbits w : Nat) : Option Instr :=
  match decodeBytes (bytesOfWord (tableWord nbits w)) with
  | .ok (i, _) => some i
  | .error _ => none

end Sys2Proof
end

