-- ==== Sys2Proof/Machine/Loader.lean ====
section
/-! DEFINITION. The loader contract (spec/70_reset_and_hazards.md R200 to R202) and the placing of one
instruction word where the next step fetches. -/

namespace Sys2Proof.Machine

/-- The state when the first step starts, for a program and the open parameters of the environment
(R34). -/
def startState (regs : Vector Word 8) (src : InputSource) (capacity : List Bool) (config : Config)
    (words : List Word) : State where
  regs := regs
  pc := 0
  bound := BitVec.ofNat 32 words.length
  run := .running
  mem := { slots := [.live (Segment.ofWords words)], pool := [] }
  out := []
  input := src
  capacity := capacity
  config := config
  released := false

/-- `Load(words, word_count)` (R201). A program of 2^32 words or more is refused by the loader (R202,
D17): CORE never starts. -/
def load (regs : Vector Word 8) (src : InputSource) (capacity : List Bool) (config : Config)
    (words : List Word) : Option State :=
  if words.length ≤ Config.maxSegmentWords then some (startState regs src capacity config words)
  else none

/-- The words of a program file, word k from bytes 4k to 4k + 3 in big-endian order (R54, R201); a file
whose length is not a multiple of 4 is rejected (R202, D12). -/
def wordsOfBytes : List Byte → Option (List Word)
  | [] => some []
  | b0 :: b1 :: b2 :: b3 :: rest => (wordsOfBytes rest).map (wordOfBytes b0 b1 b2 b3 :: ·)
  | _ => none

/-- `Load` from the bytes of a program file. -/
def loadBytes (regs : Vector Word 8) (src : InputSource) (capacity : List Bool) (config : Config)
    (file : List Byte) : Option State :=
  match wordsOfBytes file with
  | some words => load regs src capacity config words
  | none => none

/-- The largest index a fetch can have: pc < bound <= 2^32 - 1 (R100). -/
def fetchIndex (pc : Word) : Word := if pc = 0xFFFFFFFF then 0 else pc

/-- Segment 0 as it stands, empty if there is none. -/
def Memory.programSegment (m : Memory) : Segment := (m.segment? 0).getD (Segment.zeros 0)

/-- A segment made long enough to have a word at `pc`. -/
def Segment.grownTo (g : Segment) (pc : Word) : Segment :=
  { g with len := if pc < g.len then g.len else pc + 1 }

/-- The same, with `w` there. -/
def Segment.withWordAt (g : Segment) (pc w : Word) : Segment := (g.grownTo pc).set pc w

/-- The memory with `g` as segment 0. -/
def Memory.withProgram (m : Memory) (g : Segment) : Memory :=
  match m.slots with
  | [] => { m with slots := [.live g] }
  | _ :: rest => { m with slots := .live g :: rest }

/-- A state that fetches and runs the word `w` next: segment 0 has `w` at pc, bound is its length, and
the machine is running with its storage held (log 21). pc changes only where no fetch is possible. -/
def State.placeWord (s : State) (w : Word) : State :=
  let pc := fetchIndex s.pc
  let g := s.mem.programSegment.withWordAt pc w
  { s with pc := pc, bound := g.len, run := .running, mem := s.mem.withProgram g, released := false }

end Sys2Proof.Machine
end

