-- ==== Sys2Proof/Machine/Step.lean ====
section
/-! DEFINITION. LC: one step of the loop (spec/40_execution_loop.md R91 to R98). -/

namespace Sys2Proof.Machine

/-- One step (R98). A state whose run is over has none (R101). A waiting input leaves the state as it is
(R165), which is why pc is advanced by the meanings (R95) and not here. -/
def step (s : State) : Host.Outcome State Fault Refusal :=
  match s.run with
  | .running =>
    if s.pc = s.bound then .next { s with run := .ended }
    else if s.bound < s.pc then
      match s.config.pcPastBound with
      | .fault => raise (.pcOutOfRange s.pc s.bound)
      | .endRun => .next { s with run := .ended }
    else
      match s.fetch with
      | .error f => raise f
      | .ok w =>
        match decode w with
        | .ok i => exec i s
        | .error _ => raise (.dispatchFault (fieldOpcode w) s.pc w)
  | _ => .refused .runOver

/-- The state with the instruction word of an opcode-table row placed where the next step fetches. -/
def State.withFetchWord (s : State) (nbits w : Nat) : State := s.placeWord (tableWord nbits w)

end Sys2Proof.Machine
end

