-- ==== Sys2Proof/Safety.lean ====
section
/-! DEFINITION. The terms claims are stated in: the invariant of a run, the status interface
(spec/60_exceptions.md R187), the observable result of a run (spec/40_execution_loop.md R99), what has
been delivered to the output sink (spec/44_io.md R162), and safety. -/

namespace Sys2Proof.Machine

/-- What holds in every state of a run: the spec's own invariants (R27, R42, R43, R50, R53) and the
canonical form of the memory. The state after `Load` has it and every step keeps it. -/
structure Inv (s : State) : Prop where
  /-- The memory is in canonical form. -/
  memory : s.mem.wf = true
  /-- Slot 0 is live for the whole run (R42) and bound is the length of segment 0 (R27). -/
  program : (s.mem.segment? 0).map Segment.len = some s.bound
  /-- No identifier is twice in the recycle pool. -/
  poolNodup : s.mem.pool.Nodup
  /-- The pool holds exactly the identifiers of tombstoned slots (R48, R50). -/
  poolFreed : ∀ id : Word, id ∈ s.mem.pool ↔ s.mem.slots[id.toNat]? = some .tombstone
  /-- Identifiers fit a register (R48, D8). -/
  tableFits : s.mem.tableLen ≤ Config.maxSlots
  /-- Storage is released by halt and by nothing else (R53). -/
  released : s.released = true ↔ s.run = .halted
  /-- A fault is an outcome, never a state a step answers (R101, R186). -/
  notFaulted : ∀ f, s.run ≠ .faulted f

/-- The input source keeps its contract: it answers bytes, 0 to 255 (R163). What follows the listed answers
in an endless stream are bytes by their type. -/
def State.inputContract (s : State) : Prop := ∀ v ∈ s.input.pending, v.toNat < 256

/-- The instruction completes: `exec` answers a next state, of which `P` holds. -/
def Completes (i : Instr) (s : State) (P : State → Prop) : Prop :=
  ∃ t, exec i s = .next t ∧ P t

/-- The loop is about to run `i`: the machine is running, pc is below bound and the word of segment 0 at
pc decodes to `i` (R91 to R93). -/
def FetchesInstr (s : State) (i : Instr) : Prop :=
  s.run = .running ∧ s.pc < s.bound ∧ ∃ w, s.mem.word? 0 s.pc = some w ∧ decode w = .ok i

/-- Two states agree on everything but, perhaps, register `r`. -/
def AgreeBut (r : Reg) (s t : State) : Prop :=
  (∀ q, q ≠ r → s.reg q = t.reg q) ∧ t = { s with regs := t.regs }

/-- Two outcomes are the same fault, the same refusal, or next states that agree on everything but,
perhaps, register `r`. -/
def OutcomesAgreeBut (r : Reg) : Result → Result → Prop
  | .next s, .next t => AgreeBut r s t
  | .fault f, .fault g => f = g
  | .refused f, .refused g => f = g
  | _, _ => False

/-- The status interface after a step from `s` (R13, R187): a fault shows as `Faulted(cause)`; where
there is no step the status stays. -/
def statusAfter (s : State) : RunState :=
  match step s with
  | .next t => t.run
  | .fault f => .faulted f
  | .refused _ => s.run

/-- The observable result of a run (R99): the run state, the bytes output and, unless a fault ended the
run (R186, D14), the final state. -/
structure Observation where
  status : RunState
  out : List Byte
  final : Option State
  deriving DecidableEq, Repr

/-- The observation after at most `k` steps, stopping when the run is over. `host n` is what the host does
before step `n` (R163, R165), so that a claim can quantify over every way the input source answers, any
infinite `INPUT_STREAM` included (D9). Only the input source hears the host, so `out` is as before it. -/
def observe (host : Nat → HostEvent) : Nat → State → Observation
  | 0, s => ⟨s.run, s.out, some s⟩
  | k + 1, s =>
    match step (s.afterEvent (host 0)) with
    | .next t => observe (fun n => host (n + 1)) k t
    | .fault f => ⟨.faulted f, s.out, none⟩
    | .refused _ => ⟨s.run, s.out, some s⟩

/-- The bytes that may have reached the sink (R162, D10): all of them, in order, on a successful end;
otherwise some prefix, which one the spec leaves open (log 13). -/
def Delivered (o : Observation) (bytes : List Byte) : Prop :=
  match o.status with
  | .halted => bytes = o.out
  | .ended => bytes = o.out
  | .running => bytes <+: o.out
  | .faulted _ => bytes <+: o.out

/-- Success is `Halted` or `Ended` (R187). -/
def RunState.success : RunState → Bool
  | .halted => true
  | .ended => true
  | .running => false
  | .faulted _ => false

/-- A run is safe for `k` steps under a host when no fault ends it within them (R99). -/
def SafeFor (host : Nat → HostEvent) (k : Nat) (s : State) : Prop :=
  ∀ f, (observe host k s).status ≠ .faulted f

end Sys2Proof.Machine
end

