-- ==== Sys2Proof/Certificates/Slice0/Obligations.lean ====
section
/-! DEFINITION. The statements for the provers. Each docstring names the rule of spec/ it formalises.
A frame is written `t = { s with … }`: every field of the state not listed there is as before, the whole
memory among them where `mem` is not listed, so every address reads as before. -/

open Sys2Proof Sys2Proof.Machine

/-! ### Encoding and the decoder (spec/30_encoding.md) -/

/-- Decoding an encoded instruction gives it back, every operand at every value (R80, R85, R87). The
opcode numbers 0 to 12 on both sides are D1, PRESUMED (log 1). -/
def Obligations.DecodeOfEncodeIsTheInstruction : Prop :=
  ∀ i : Instr, decode (encode i) = .ok i

/-- The six accessors read the bits R72 to R77 state, unsigned, and the immediate is zero-extended. -/
def Obligations.FieldAccessorsReadTheStatedBits : Prop :=
  ∀ w : Word,
    (fieldOpcode w).toNat = w.toNat / 2 ^ 28 ∧
    (fieldA w).val = w.toNat / 2 ^ 6 % 8 ∧
    (fieldAImm w).val = w.toNat / 2 ^ 25 % 8 ∧
    (fieldB w).val = w.toNat / 2 ^ 3 % 8 ∧
    (fieldC w).val = w.toNat % 8 ∧
    (immediateValue (fieldImm w)).toNat = w.toNat % 2 ^ 25

/-- Each opcode value selects its operation with the fields R80 lists, read from the bit positions of
R72 to R77, whatever the other bits are (R79); 14 and 15 decode to no instruction (R82). The numbers 0 to
12 are the spec's D1, PRESUMED (log 1); that other bits are ignored is D2 (log 2). -/
def Obligations.DecodeReadsTheFieldsOfEachOperation : Prop :=
  ∀ w : Word,
    let op := w.toNat / 2 ^ 28
    let a : Reg := Fin.ofNat 8 (w.toNat / 2 ^ 6)
    let b : Reg := Fin.ofNat 8 (w.toNat / 2 ^ 3)
    let c : Reg := Fin.ofNat 8 w.toNat
    (op = 0 → decode w = .ok (.conditionalMove a b c)) ∧
    (op = 1 → decode w = .ok (.segmentLoad a b c)) ∧
    (op = 2 → decode w = .ok (.segmentStore a b c)) ∧
    (op = 3 → decode w = .ok (.add a b c)) ∧
    (op = 4 → decode w = .ok (.multiply a b c)) ∧
    (op = 5 → decode w = .ok (.divide a b c)) ∧
    (op = 6 → decode w = .ok (.bitwiseNand a b c)) ∧
    (op = 7 → decode w = .ok .halt) ∧
    (op = 8 → decode w = .ok (.mapSegment b c)) ∧
    (op = 9 → decode w = .ok (.unmapSegment c)) ∧
    (op = 10 → decode w = .ok (.output c)) ∧
    (op = 11 → decode w = .ok (.input c)) ∧
    (op = 12 → decode w = .ok (.loadProgram b c)) ∧
    (op = 13 → decode w =
      .ok (.loadValue (Fin.ofNat 8 (w.toNat / 2 ^ 25)) (BitVec.ofNat 25 w.toNat))) ∧
    (14 ≤ op → decode w = .error (.illegal (BitVec.ofNat 4 op)))

/-- A word decodes to an instruction exactly when its opcode is 0 to 13 (R83); 14 and 15 are the only
illegal values (R82). That a word with opcode 0 to 13 is accepted whatever its other bits are is the
spec's own decision (R79, D2), DESIGN CHOICE (log 2). -/
def Obligations.OnlyOpcodes14And15AreIllegal : Prop :=
  ∀ w : Word, (∃ i, decode w = .ok i) ↔ w.toNat / 2 ^ 28 < 14

/-- Two three-register words with the same opcode and the same A, B and C decode alike: bits 27 to 9
change nothing. That unused bits are ignored is the spec's own decision (R79, D2; log 2). -/
def Obligations.BitsNoFieldNamesChangeNothing : Prop :=
  ∀ v w : Word, v.toNat / 2 ^ 28 = w.toNat / 2 ^ 28 → v.toNat / 2 ^ 28 ≠ 13 →
    v.toNat % 2 ^ 9 = w.toNat % 2 ^ 9 → decode v = decode w

/-- Words of 95_test_vectors.md (section 2.1 and programs P2, P4, P5) decode to what that file says they
stand for. The opcode numbers are D1, PRESUMED (log 1). 0x3FFFFE4D and 0x7FFFFFFF decode because bits no
field names are ignored, which is D2, DESIGN CHOICE (log 2). -/
def Obligations.WordsOfTheVectorTableDecode : Prop :=
  decode 0x00000053 = .ok (.conditionalMove 1 2 3) ∧
  decode 0x3FFFFE4D = .ok (.add 1 1 5) ∧
  decode 0x200000BD = .ok (.segmentStore 2 7 5) ∧
  decode 0x7FFFFFFF = .ok .halt ∧
  decode 0xA0000004 = .ok (.output 4) ∧
  decode 0xC0000033 = .ok (.loadProgram 6 3) ∧
  decode 0xD3FFFFFF = .ok (.loadValue 1 33554431) ∧
  decode 0xE0000000 = .error (.illegal 14)

/-- The assembler accepts exactly the well-formed lines: an instruction written as a line assembles to
its word, and a register outside r0 to r7, an immediate outside 0 to 33554431 or a wrong operand list is
refused. The word is the one the encoding column of R85 gives each row: the fields the row lists, and
every other bit 0. The syntax is the spec's own decision (R85, D13; log 24), and the opcode numbers 0 to
12 are D1, PRESUMED (log 1). -/
def Obligations.AssemblerAcceptsExactlyWellFormedLines : Prop :=
  (∀ i : Instr, assemble i.toSource = some (encode i)) ∧
  (∀ l : SourceLine, (∃ w, assemble l = some w) ↔ l.wf = true) ∧
  (∀ l : SourceLine, l.wf = true → ∃ i : Instr, i.toSource = l) ∧
  (∀ (a b c : Reg) (imm : BitVec 25),
    let fieldsABC := 2 ^ 6 * a.val + 2 ^ 3 * b.val + c.val
    let fieldsBC := 2 ^ 3 * b.val + c.val
    (encode (.conditionalMove a b c)).toNat = fieldsABC ∧
    (encode (.segmentLoad a b c)).toNat = 2 ^ 28 * 1 + fieldsABC ∧
    (encode (.segmentStore a b c)).toNat = 2 ^ 28 * 2 + fieldsABC ∧
    (encode (.add a b c)).toNat = 2 ^ 28 * 3 + fieldsABC ∧
    (encode (.multiply a b c)).toNat = 2 ^ 28 * 4 + fieldsABC ∧
    (encode (.divide a b c)).toNat = 2 ^ 28 * 5 + fieldsABC ∧
    (encode (.bitwiseNand a b c)).toNat = 2 ^ 28 * 6 + fieldsABC ∧
    (encode .halt).toNat = 2 ^ 28 * 7 ∧
    (encode (.mapSegment b c)).toNat = 2 ^ 28 * 8 + fieldsBC ∧
    (encode (.unmapSegment c)).toNat = 2 ^ 28 * 9 + c.val ∧
    (encode (.output c)).toNat = 2 ^ 28 * 10 + c.val ∧
    (encode (.input c)).toNat = 2 ^ 28 * 11 + c.val ∧
    (encode (.loadProgram b c)).toNat = 2 ^ 28 * 12 + fieldsBC ∧
    (encode (.loadValue a imm)).toNat = 2 ^ 28 * 13 + 2 ^ 25 * a.val + imm.toNat)

/-- Text in the syntax of R85: the text of an instruction assembles to its word, and the text of a line
assembles exactly when the line is well-formed. The syntax is the spec's own decision (D13; log 24), and
`AssemblerAcceptsExactlyWellFormedLines` says which word it is. -/
def Obligations.InstructionTextAssemblesToItsWord : Prop :=
  (∀ i : Instr, assembleText i.toSource.text = some (encode i)) ∧
  ∀ l : SourceLine, (∃ w, assembleText l.text = some w) ↔ l.wf = true

/-! ### Loading (spec/70_reset_and_hazards.md) -/

/-- The loaded machine: pc 0, bound the word count, running, only slot 0 live with the words in order,
empty pool, no output, registers and input the environment's (R34; the rows the spec marks derived
included). -/
def Obligations.LoadLeavesTheStateOfTheResetTable : Prop :=
  ∀ regs src capacity config words, words.length ≤ 4294967295 →
    ∃ s, load regs src capacity config words = some s ∧
      s.pc = 0 ∧ s.bound.toNat = words.length ∧ s.run = .running ∧ s.regs = regs ∧
      s.mem.tableLen = 1 ∧ s.mem.pool = [] ∧ s.out = [] ∧ s.input = src ∧
      ∀ k : Word, s.mem.word? 0 k = words[k.toNat]?

/-- The loader gives segment 0 exactly word_count words, word k made from file bytes 4k to 4k + 3, the
first the most significant, and starts at pc = 0 with bound the word count (R201, R54). -/
def Obligations.LoaderReadsTheProgramFileBigEndian : Prop :=
  ∀ regs src capacity config, ∀ file : List Byte, file.length % 4 = 0 →
    file.length / 4 ≤ 4294967295 →
    ∃ s, loadBytes regs src capacity config file = some s ∧
      s.pc = 0 ∧ s.bound.toNat = file.length / 4 ∧
      (s.mem.segment? 0).map Segment.len = some s.bound ∧
      ∀ k : Word, k.toNat < file.length / 4 → ∃ w, s.mem.word? 0 k = some w ∧
        w.toNat =
          2 ^ 24 * ((file[4 * k.toNat]?).getD 0).toNat +
          2 ^ 16 * ((file[4 * k.toNat + 1]?).getD 0).toNat +
          2 ^ 8 * ((file[4 * k.toNat + 2]?).getD 0).toNat +
          ((file[4 * k.toNat + 3]?).getD 0).toNat

/-- A file whose length is not a multiple of 4, and a program of 2^32 words or more, are rejected and
CORE never starts. Both are the spec's own decisions (R202, D12, D17; logs 20, 22). -/
def Obligations.LoaderRejectsPartialWordsAndOverlongPrograms : Prop :=
  ∀ regs src capacity config, ∀ file : List Byte,
    loadBytes regs src capacity config file = none ↔
      (file.length % 4 ≠ 0 ∨ 4294967295 < file.length / 4)

/-- The model's placing of an instruction word (log 21): the very next step runs that instruction, and
the invariant is kept. -/
def Obligations.PlacedWordRunsNext : Prop :=
  ∀ (s : State) (w : Word) (i : Instr), Inv s → decode w = .ok i →
    step (s.withFetchWord 32 w.toNat) = exec i (s.withFetchWord 32 w.toNat) ∧
    Inv (s.withFetchWord 32 w.toNat)

/-! ### The loop (spec/40_execution_loop.md) -/

/-- A step runs the decoded instruction and adds nothing around it (R92 to R95). -/
def Obligations.StepRunsTheDecodedInstruction : Prop :=
  ∀ (s : State) (w : Word) (i : Instr), s.run = .running → s.pc < s.bound →
    s.mem.word? 0 s.pc = some w → decode w = .ok i → step s = exec i s

/-- At pc = bound the step ends the run successfully and touches nothing else; `Ended` and `Halted` are
both successful (R91, R96). -/
def Obligations.StepAtBoundEndsTheRun : Prop :=
  ∀ s : State, s.run = .running → s.pc = s.bound → step s = .next { s with run := .ended } ∧
    RunState.ended.success = true ∧ RunState.halted.success = true

/-- At pc > bound the step does what `PC_PAST_BOUND` says. The parameter is the spec's own decision
(R97, D5; log 4). -/
def Obligations.StepPastBoundFollowsTheParameter : Prop :=
  ∀ s : State, s.run = .running → s.bound < s.pc →
    (s.config.pcPastBound = .fault → step s = .fault (.pcOutOfRange s.pc s.bound)) ∧
    (s.config.pcPastBound = .endRun → step s = .next { s with run := .ended })

/-- Opcodes 14 and 15 raise DispatchFault when the loop dispatches them, and no other opcode does
(R82). -/
def Obligations.IllegalOpcodeFaultsAtDispatch : Prop :=
  ∀ (s : State) (w : Word), s.run = .running → s.pc < s.bound → s.mem.word? 0 s.pc = some w →
    (14 ≤ w.toNat / 2 ^ 28 →
      step s = .fault (.dispatchFault (BitVec.ofNat 4 (w.toNat / 2 ^ 28)) s.pc w)) ∧
    (w.toNat / 2 ^ 28 < 14 → ∀ op pc v, step s ≠ .fault (.dispatchFault op pc v))

/-- A state whose run is over has no step (R101). -/
def Obligations.NoStepOnceTheRunIsOver : Prop :=
  ∀ s : State, s.run ≠ .running → ∀ t, step s ≠ .next t ∧ ∀ f, step s ≠ .fault f

/-! ### Conditional move, arithmetic and logic (spec/41_arith_logic.md) -/

/-- conditional-move (R110) completes in every state: result and frame. -/
def Obligations.ConditionalMoveMovesWhenConditionNonzero : Prop :=
  ∀ (a b c : Reg) (s : State), Completes (.conditionalMove a b c) s fun t =>
    t.reg a = (if s.reg c ≠ 0 then s.reg b else s.reg a) ∧
    (∀ q, q ≠ a → t.reg q = s.reg q) ∧ t = { s with regs := t.regs, pc := s.pc + 1 }

/-- add (R111) completes in every state: result and frame. -/
def Obligations.AddWrapsModulo : Prop :=
  ∀ (a b c : Reg) (s : State), Completes (.add a b c) s fun t =>
    (t.reg a).toNat = ((s.reg b).toNat + (s.reg c).toNat) % 2 ^ 32 ∧
    (∀ q, q ≠ a → t.reg q = s.reg q) ∧ t = { s with regs := t.regs, pc := s.pc + 1 }

/-- multiply (R112) completes in every state: result and frame. -/
def Obligations.MultiplyKeepsTheLowWord : Prop :=
  ∀ (a b c : Reg) (s : State), Completes (.multiply a b c) s fun t =>
    (t.reg a).toNat = ((s.reg b).toNat * (s.reg c).toNat) % 2 ^ 32 ∧
    (∀ q, q ≠ a → t.reg q = s.reg q) ∧ t = { s with regs := t.regs, pc := s.pc + 1 }

/-- divide (R113): with a non-zero divisor it completes with the unsigned quotient; a zero divisor
raises DivideByZero, whatever the dividend. That the fault carries the word of segment 0 at pc as an
option is the model's choice (log 16). -/
def Obligations.DivideIsUnsignedFloorOrFaults : Prop :=
  ∀ (a b c : Reg) (s : State),
    (s.reg c ≠ 0 → Completes (.divide a b c) s fun t =>
      (t.reg a).toNat = (s.reg b).toNat / (s.reg c).toNat ∧
      (∀ q, q ≠ a → t.reg q = s.reg q) ∧ t = { s with regs := t.regs, pc := s.pc + 1 }) ∧
    (s.reg c = 0 → exec (.divide a b c) s = .fault (.divideByZero s.pc (s.mem.word? 0 s.pc)))

/-- bitwise-nand (R114) completes in every state: result bit by bit, and frame. -/
def Obligations.NandComplementsTheAnd : Prop :=
  ∀ (a b c : Reg) (s : State), Completes (.bitwiseNand a b c) s fun t =>
    (∀ k, k < 32 → (t.reg a).getLsbD k = !((s.reg b).getLsbD k && (s.reg c).getLsbD k)) ∧
    (∀ q, q ≠ a → t.reg q = s.reg q) ∧ t = { s with regs := t.regs, pc := s.pc + 1 }

/-- load-value (R170) completes in every state: the immediate zero-extended, and frame. -/
def Obligations.LoadValueZeroExtends : Prop :=
  ∀ (a : Reg) (imm : BitVec 25) (s : State), Completes (.loadValue a imm) s fun t =>
    (t.reg a).toNat = imm.toNat ∧
    (∀ q, q ≠ a → t.reg q = s.reg q) ∧ t = { s with regs := t.regs, pc := s.pc + 1 }

/-! ### Segment operations (spec/42_segment_ops.md, spec/20_memory.md) -/

/-- An identifier is valid exactly when it is less than the table length and its slot is not tombstoned
(R44). -/
def Obligations.ValidIdentifiersAreLiveSlots : Prop :=
  ∀ (m : Memory) (id : Word),
    m.valid id = true ↔ id.toNat < m.tableLen ∧ m.slots[id.toNat]? ≠ some .tombstone

/-- segment-load (R130, R46): from a live segment with the offset below its length it completes with the
word there; every other address faults. -/
def Obligations.SegmentLoadReadsTheWordOrFaults : Prop :=
  ∀ (a b c : Reg) (s : State),
    (∀ g, s.mem.slots[(s.reg b).toNat]? = some (.live g) → s.reg c < g.len →
      Completes (.segmentLoad a b c) s fun t =>
        t.reg a = g.get (s.reg c) ∧
        (∀ q, q ≠ a → t.reg q = s.reg q) ∧ t = { s with regs := t.regs, pc := s.pc + 1 }) ∧
    ((s.mem.tableLen ≤ (s.reg b).toNat ∨ s.mem.slots[(s.reg b).toNat]? = some .tombstone ∨
        ∃ g, s.mem.slots[(s.reg b).toNat]? = some (.live g) ∧ g.len ≤ s.reg c) →
      exec (.segmentLoad a b c) s = .fault (.invalidSegmentAccess (s.reg b) (s.reg c)))

/-- segment-store (R131, R47). In bounds the addressed word becomes x[C] and every other address reads
as before; the table, its lengths and the pool are unchanged, and no register is written. Out of bounds
it faults. `Inv`, kept by every step (`StepKeepsTheInvariant`), is used for the canonical form only. -/
def Obligations.SegmentStoreWritesOneWordOrFaults : Prop :=
  ∀ (a b c : Reg) (s : State),
    storeAddress a b s = ⟨s.reg a, s.reg b⟩ ∧
    (∀ g, Inv s → s.mem.slots[(storeAddress a b s).id.toNat]? = some (.live g) →
      (storeAddress a b s).off < g.len → Completes (.segmentStore a b c) s fun t =>
        t.mem.word? (storeAddress a b s).id (storeAddress a b s).off = some (s.reg c) ∧
        (∀ id off, ¬ (id = (storeAddress a b s).id ∧ off = (storeAddress a b s).off) →
          t.mem.word? id off = s.mem.word? id off) ∧
        (∀ id, (t.mem.segment? id).map Segment.len = (s.mem.segment? id).map Segment.len) ∧
        t.mem.tableLen = s.mem.tableLen ∧ t.mem.pool = s.mem.pool ∧
        t = { s with mem := t.mem, pc := s.pc + 1 }) ∧
    ((s.mem.tableLen ≤ (s.reg a).toNat ∨ s.mem.slots[(s.reg a).toNat]? = some .tombstone ∨
        ∃ g, s.mem.slots[(s.reg a).toNat]? = some (.live g) ∧ g.len ≤ s.reg b) →
      exec (.segmentStore a b c) s = .fault (.invalidSegmentAccess (s.reg a) (s.reg b)))

/-- map-segment (R132, R48) when an identifier is in the pool and the Address Space can hold the segment
(`canHold`, D8, log 7): x[B] becomes the last freed identifier, which
names a new segment of x[C] zero words; the table keeps its length and every other identifier names what
it named. -/
def Obligations.MapSegmentReusesTheLastFreedIdentifier : Prop :=
  ∀ (b c : Reg) (s : State) (id : Word) (rest : List Word), Inv s → s.canHold = true →
    s.mem.pool = id :: rest → Completes (.mapSegment b c) s fun t =>
      t.reg b = id ∧ (∀ q, q ≠ b → t.reg q = s.reg q) ∧
      (t.mem.segment? id).map Segment.len = some (s.reg c) ∧
      (∀ off, off < s.reg c → t.mem.word? id off = some 0) ∧
      (∀ j, j ≠ id → t.mem.segment? j = s.mem.segment? j) ∧
      t.mem.tableLen = s.mem.tableLen ∧ t.mem.pool = rest ∧
      t = { s with regs := t.regs, mem := t.mem, capacity := s.capacity.tail, pc := s.pc + 1 }

/-- map-segment (R132, R48) when the pool is empty: x[B] becomes the old table length and the table
grows by one. -/
def Obligations.MapSegmentAppendsWhenThePoolIsEmpty : Prop :=
  ∀ (b c : Reg) (s : State), s.canHold = true → s.mem.pool = [] → s.mem.tableLen < 2 ^ 32 →
    Completes (.mapSegment b c) s fun t =>
      (t.reg b).toNat = s.mem.tableLen ∧ (∀ q, q ≠ b → t.reg q = s.reg q) ∧
      (t.mem.segment? (t.reg b)).map Segment.len = some (s.reg c) ∧
      (∀ off, off < s.reg c → t.mem.word? (t.reg b) off = some 0) ∧
      (∀ j, j ≠ t.reg b → t.mem.segment? j = s.mem.segment? j) ∧
      t.mem.tableLen = s.mem.tableLen + 1 ∧ t.mem.pool = [] ∧
      t = { s with regs := t.regs, mem := t.mem, capacity := s.capacity.tail, pc := s.pc + 1 }

/-- map-segment faults when the Address Space cannot hold the segment or no identifier is left: the
spec's own decision (R48, D8; logs 7, 8). -/
def Obligations.MapSegmentFaultsWhenExhausted : Prop :=
  ∀ (b c : Reg) (s : State),
    s.canHold = false ∨ (s.mem.pool = [] ∧ s.mem.tableLen = 2 ^ 32) →
    exec (.mapSegment b c) s = .fault (.resourceExhausted (s.reg c))

/-- unmap-segment (R133, R50): the slot of a live segment other than 0 is tombstoned and its identifier
goes on top of the pool; every other identifier names what it named. -/
def Obligations.UnmapSegmentTombstonesAndPushes : Prop :=
  ∀ (c : Reg) (s : State) (g : Segment), s.reg c ≠ 0 →
    s.mem.slots[(s.reg c).toNat]? = some (.live g) → Completes (.unmapSegment c) s fun t =>
      t.mem.slots[(s.reg c).toNat]? = some .tombstone ∧
      t.mem.pool = s.reg c :: s.mem.pool ∧ t.mem.tableLen = s.mem.tableLen ∧
      (∀ off, t.mem.word? (s.reg c) off = none) ∧
      (∀ j, j ≠ s.reg c → t.mem.segment? j = s.mem.segment? j) ∧
      t = { s with mem := t.mem, pc := s.pc + 1 }

/-- unmap-segment of identifier 0 faults (R133); so does one not below the table length or tombstoned,
which is the spec's own decision (R50, D6; log 5). -/
def Obligations.UnmapSegmentFaultsOnTheProgramAndInvalidIds : Prop :=
  ∀ (c : Reg) (s : State),
    (s.reg c = 0 → exec (.unmapSegment c) s = .fault (.unmapProgramSegment 0)) ∧
    (s.reg c ≠ 0 → s.mem.tableLen ≤ (s.reg c).toNat ∨
        s.mem.slots[(s.reg c).toNat]? = some .tombstone →
      exec (.unmapSegment c) s = .fault (.invalidSegmentAccess (s.reg c) 0))

/-- Free B then C: the next two allocations return C then B, and a third the table length
(R48, R50, R65; 95_test_vectors.md W1), each with the capacity answer yes (D8; log 7). -/
def Obligations.FreedIdentifiersAreReusedLastFirst : Prop :=
  ∀ (m m1 m2 : Memory) (idB idC n1 n2 : Word), idB ≠ idC →
    m.free idB = .ok m1 → m1.free idC = .ok m2 →
    ∃ m3 m4, m2.alloc true n1 = .ok (idC, m3) ∧ m3.alloc true n2 = .ok (idB, m4) ∧
      m4.pool = m.pool ∧ m4.tableLen = m.tableLen ∧
      ∀ n3, m.pool = [] → m.tableLen < 2 ^ 32 →
        ∃ m5, m4.alloc true n3 = .ok (BitVec.ofNat 32 m.tableLen, m5) ∧
          m5.tableLen = m.tableLen + 1

/-! ### Control (spec/43_control.md) -/

/-- halt (R150) completes in every state: the storage is released, the run has halted, and nothing else
changes, pc included. That the contents stay readable is the model's choice (log 17). -/
def Obligations.HaltEndsTheRunSuccessfully : Prop :=
  ∀ s : State, Completes .halt s fun t =>
    t.run = .halted ∧ t.released = true ∧ t.run.success = true ∧
    t = { s with run := .halted, released := true }

/-- load-program with x[B] = 0 (R151, R52) is the jump within the program: only pc changes, to x[C]. -/
def Obligations.LoadProgramOfSegmentZeroOnlyJumps : Prop :=
  ∀ (b c : Reg) (s : State), s.reg b = 0 → Completes (.loadProgram b c) s fun t =>
    t.pc = s.reg c ∧ t = { s with pc := s.reg c }

/-- load-program with x[B] naming another live segment (R151, R52): segment 0 becomes a copy of it, it
stays live with its own contents, bound becomes its length, pc becomes x[C], no register is written. -/
def Obligations.LoadProgramReplacesTheProgram : Prop :=
  ∀ (b c : Reg) (s : State) (g : Segment), s.reg b ≠ 0 →
    s.mem.slots[(s.reg b).toNat]? = some (.live g) → s.canHold = true →
    Completes (.loadProgram b c) s fun t =>
      t.pc = s.reg c ∧ t.bound = g.len ∧
      (∀ off, t.mem.word? 0 off = s.mem.word? (s.reg b) off) ∧
      (∀ j, j ≠ 0 → t.mem.segment? j = s.mem.segment? j) ∧
      t.mem.tableLen = s.mem.tableLen ∧ t.mem.pool = s.mem.pool ∧
      t = { s with mem := t.mem, capacity := s.capacity.tail, pc := s.reg c, bound := g.len }

/-- load-program from an invalid non-zero identifier faults, and from a valid one when the copy cannot be
held; the identifier is checked first. These are the spec's own decisions (R52, D7, D8; logs 6, 7). -/
def Obligations.LoadProgramFaultsOnInvalidOrExhausted : Prop :=
  ∀ (b c : Reg) (s : State), s.reg b ≠ 0 →
    (s.mem.tableLen ≤ (s.reg b).toNat ∨ s.mem.slots[(s.reg b).toNat]? = some .tombstone →
      exec (.loadProgram b c) s = .fault (.invalidSegmentAccess (s.reg b) 0)) ∧
    (∀ g, s.mem.slots[(s.reg b).toNat]? = some (.live g) → s.canHold = false →
      exec (.loadProgram b c) s = .fault (.resourceExhausted g.len))

/-- The copy is independent (R64): after load-program from segment x[B], a write to either of the two
leaves the other as it was. -/
def Obligations.ReplacedProgramIsAnIndependentCopy : Prop :=
  ∀ (b c : Reg) (s t : State), s.reg b ≠ 0 → exec (.loadProgram b c) s = .next t →
    (∀ off v m, t.mem.write (s.reg b) off v = .ok m → m.segment? 0 = t.mem.segment? 0) ∧
    (∀ off v m, t.mem.write 0 off v = .ok m →
      m.segment? (s.reg b) = t.mem.segment? (s.reg b))

/-! ### Input and output (spec/44_io.md) -/

/-- output (R161): a value below 256 is appended to the output as one byte; a larger one faults, with no
truncation. That output completes for every byte rests on the sink never failing or blocking, which is
the spec's own decision (R160, D18), DESIGN CHOICE (log 12). -/
def Obligations.OutputAppendsOneByteOrFaults : Prop :=
  ∀ (c : Reg) (s : State),
    ((s.reg c).toNat < 256 → Completes (.output c) s fun t =>
      (∃ byte : Byte, byte.toNat = (s.reg c).toNat ∧ t.out = s.out ++ [byte]) ∧
      t = { s with out := t.out, pc := s.pc + 1 }) ∧
    (256 ≤ (s.reg c).toNat → exec (.output c) s = .fault (.outputOutOfRange (s.reg c)))

/-- input (R164) with an answer at the front of the remaining input: x[C] becomes the byte,
zero-extended, and it is taken off; an answer of 256 or more faults (the form of the answers: log 11). The
remaining input may be infinite (R163, D9): then the front is the next byte of the endless stream, a free
value (log 28). -/
def Obligations.InputTakesTheNextByteOrFaults : Prop :=
  (∀ (c : Reg) (s : State) (v : Word) (rest : List Word), s.input.pending = v :: rest →
    (v.toNat < 256 → Completes (.input c) s fun t =>
      t.reg c = v ∧ (∀ q, q ≠ c → t.reg q = s.reg q) ∧
      t = { s with
        regs := t.regs, input := { s.input with pending := rest }, pc := s.pc + 1 }) ∧
    (256 ≤ v.toNat → exec (.input c) s = .fault (.inputOutOfRange v))) ∧
  ∀ (c : Reg) (s : State) (j p : Nat), s.input.pending = [] → s.input.tail = .endless j p →
    Completes (.input c) s fun t =>
      (t.reg c).toNat = (Config.inputStream j p).toNat ∧ (∀ q, q ≠ c → t.reg q = s.reg q) ∧
      t = { s with regs := t.regs, input := ⟨[], .endless j (p + 1)⟩, pc := s.pc + 1 }

/-- input (R164) on an exhausted source: x[C] becomes 0xFFFFFFFF, never a fault. That the source stays
exhausted is the spec's own decision (D9; log 9). -/
def Obligations.InputAtEndOfStreamReadsAllOnes : Prop :=
  ∀ (c : Reg) (s : State), s.input.pending = [] → s.input.tail = .exhausted →
    Completes (.input c) s fun t =>
      t.reg c = 0xFFFFFFFF ∧ (∀ q, q ≠ c → t.reg q = s.reg q) ∧
      t = { s with regs := t.regs, pc := s.pc + 1 }

/-- input waits while the source has not answered: "nothing else happens meanwhile" (R165). That a wait
is a step to the same state is the model's form of it (log 10). When the answer comes the same
instruction takes it. -/
def Obligations.InputWaitsForTheSource : Prop :=
  ∀ (c : Reg) (s : State), s.input.pending = [] → s.input.tail = .unanswered →
    exec (.input c) s = .next s ∧
    (∀ v : Word, v.toNat < 256 → Completes (.input c) (s.supplyInput v) fun t => t.reg c = v) ∧
    Completes (.input c) s.endInput fun t => t.reg c = 0xFFFFFFFF

/-- While the source keeps its contract, bytes only, the defensive fault of input never happens, and no
step breaks the contract (R163, R164). -/
def Obligations.SourceOfBytesNeverRaisesInputOutOfRange : Prop :=
  ∀ s : State, s.inputContract →
    (∀ v, step s ≠ .fault (.inputOutOfRange v)) ∧
    (∀ t, step s = .next t → t.inputContract) ∧
    (∀ v : Word, v.toNat < 256 → (s.supplyInput v).inputContract) ∧ s.endInput.inputContract

/-! ### Rules about the whole machine -/

/-- The state after reset, a load of the empty program (log 21), meets the invariant. Which clauses of
`Inv` are the model's choices is said at `StepKeepsTheInvariant`. -/
def Obligations.ResetStateMeetsTheInvariant : Prop := Inv State.reset

/-- So does the state after `Load` of any program, with any registers, input and capacity
(R27, R34, R49). Which clauses of `Inv` are the model's choices is said at `StepKeepsTheInvariant`. -/
def Obligations.LoadedStateMeetsTheInvariant : Prop :=
  ∀ regs src capacity config words s,
    load regs src capacity config words = some s → Inv s

/-- Every step keeps the invariant: slot 0 live with length bound (R27, R42), the pool exactly the
tombstoned identifiers without repeats (R48, R50), identifiers fit a register (D8; log 8). Three of its
clauses are the model's choices, not the spec's: `run` is never `faulted` in a state, since a fault is an
outcome (log 14), where R181 writes run <- Faulted(F); the storage is recorded as released exactly when
halted, with slot 0 still live after it (log 17), where R53 frees it; and the memory is in canonical form
(log 18). -/
def Obligations.StepKeepsTheInvariant : Prop :=
  ∀ s t : State, Inv s → step s = .next t → Inv t

/-- The fetch never faults (R92). -/
def Obligations.FetchNeverFaults : Prop :=
  ∀ s : State, Inv s → s.pc < s.bound → ∃ w, s.fetch = .ok w ∧ s.mem.word? 0 s.pc = some w

/-- Exactly the conditions of R182 fault, each with its cause, in the order of R184, and no other
condition does (R183). Of these the spec's own decisions are: the fault past bound (D5; log 4), invalid
identifiers of unmap-segment and load-program (D6, D7; logs 5, 6), exhaustion (D8; logs 7, 8) and the
order (D15; log 25). DivideByZero's word is log 16. -/
def Obligations.StepFaultsExactlyAsListed : Prop :=
  ∀ (s : State) (f : Fault), Inv s → (step s = .fault f ↔ s.run = .running ∧
    ((s.bound < s.pc ∧ s.config.pcPastBound = .fault ∧ f = .pcOutOfRange s.pc s.bound) ∨
      ∃ w, s.pc < s.bound ∧ s.mem.word? 0 s.pc = some w ∧
        ((∃ op, decode w = .error (.illegal op) ∧ f = .dispatchFault op s.pc w) ∨
        (∃ a b c, decode w = .ok (.divide a b c) ∧ s.reg c = 0 ∧
          f = .divideByZero s.pc (some w)) ∨
        (∃ a b c, decode w = .ok (.segmentLoad a b c) ∧ s.mem.word? (s.reg b) (s.reg c) = none ∧
          f = .invalidSegmentAccess (s.reg b) (s.reg c)) ∨
        (∃ a b c, decode w = .ok (.segmentStore a b c) ∧ s.mem.word? (s.reg a) (s.reg b) = none ∧
          f = .invalidSegmentAccess (s.reg a) (s.reg b)) ∨
        (∃ c, decode w = .ok (.unmapSegment c) ∧
          ((s.reg c = 0 ∧ f = .unmapProgramSegment 0) ∨
            (s.reg c ≠ 0 ∧ s.mem.valid (s.reg c) = false ∧
              f = .invalidSegmentAccess (s.reg c) 0))) ∨
        (∃ c, decode w = .ok (.output c) ∧ 256 ≤ (s.reg c).toNat ∧
          f = .outputOutOfRange (s.reg c)) ∨
        (∃ c v rest, decode w = .ok (.input c) ∧ s.input.pending = v :: rest ∧ 256 ≤ v.toNat ∧
          f = .inputOutOfRange v) ∨
        (∃ b c, decode w = .ok (.mapSegment b c) ∧
          (s.canHold = false ∨ (s.mem.pool = [] ∧ s.mem.tableLen = 2 ^ 32)) ∧
          f = .resourceExhausted (s.reg c)) ∨
        (∃ b c, decode w = .ok (.loadProgram b c) ∧ s.reg b ≠ 0 ∧
          ((s.mem.valid (s.reg b) = false ∧ f = .invalidSegmentAccess (s.reg b) 0) ∨
            (s.canHold = false ∧ ∃ g, s.mem.segment? (s.reg b) = some g ∧
              f = .resourceExhausted g.len))))))

/-- pc moves only as R25 and R95 say: by one, without wrapping (R100), except to x[C] by load-program;
it stays at halt and at the end of the run. The last case, that a waiting input is a step to the same
state, is the model's form of R165, DEDUCED (log 10). -/
def Obligations.PcAdvancesByOneExceptAsStated : Prop :=
  ∀ s t : State, step s = .next t →
    (s.pc < s.bound ∧ t.pc.toNat = s.pc.toNat + 1) ∨
    (∃ b c, FetchesInstr s (.loadProgram b c) ∧ t.pc = s.reg c) ∨
    (t.pc = s.pc ∧ (t.run = .halted ∨ t.run = .ended)) ∨
    (t = s ∧ ∃ c, FetchesInstr s (.input c) ∧ s.input.pending = [] ∧ s.input.tail = .unanswered)

/-- bound changes only by a load-program that replaces segment 0 (R26). -/
def Obligations.BoundChangesOnlyByProgramReplacement : Prop :=
  ∀ s t : State, step s = .next t → t.bound ≠ s.bound →
    ∃ b c, FetchesInstr s (.loadProgram b c) ∧ s.reg b ≠ 0 ∧
      (s.mem.segment? (s.reg b)).map Segment.len = some t.bound

/-- A register changes only if the executed instruction writes it (R22), and an instruction reads at most
three registers (R24). -/
def Obligations.OnlyTheWrittenRegisterChanges : Prop :=
  (∀ (i : Instr) (s t : State) (r : Reg), exec i s = .next t → t.reg r ≠ s.reg r →
    regWritten i = some r) ∧
  (∀ i : Instr, (regsRead i).length ≤ 3)

/-- A register the instruction does not read has no influence (R22): two states that differ in it alone
give the same fault, or next states that differ at most in it. -/
def Obligations.UnreadRegistersDoNotMatter : Prop :=
  ∀ (i : Instr) (r : Reg) (s t : State), r ∉ regsRead i → AgreeBut r s t →
    OutcomesAgreeBut r (exec i s) (exec i t)

/-- The table never shrinks, and grows, by one, only when map-segment finds the pool empty (R43). -/
def Obligations.SegmentTableNeverShrinks : Prop :=
  ∀ s t : State, step s = .next t →
    t.mem.tableLen = s.mem.tableLen ∨
    (t.mem.tableLen = s.mem.tableLen + 1 ∧ s.mem.pool = [] ∧
      ∃ b c, FetchesInstr s (.mapSegment b c))

/-- A segment other than 0 that is live before and after a step has the same length (R41); it has the
same words unless the step is a segment-store to it (R46, R47). -/
def Obligations.LiveSegmentsKeepTheirLengthAndWords : Prop :=
  ∀ (s t : State) (id : Word) (g g' : Segment), Inv s → step s = .next t → id ≠ 0 →
    s.mem.segment? id = some g → t.mem.segment? id = some g' →
    g'.len = g.len ∧
    (g' = g ∨ ∃ a b c, FetchesInstr s (.segmentStore a b c) ∧ s.reg a = id)

/-- map-segment never returns identifier 0, nor one that is live (R51, R48). -/
def Obligations.MapSegmentReturnsAnUnusedIdentifier : Prop :=
  ∀ (b c : Reg) (s t : State), Inv s → exec (.mapSegment b c) s = .next t →
    t.reg b ≠ 0 ∧ s.mem.valid (t.reg b) = false ∧ t.mem.valid (t.reg b) = true

/-- A store to segment 0 is seen by the next fetch of that index (R62, R205). -/
def Obligations.StoreToTheProgramIsFetched : Prop :=
  ∀ (a b c : Reg) (s t : State), Inv s → s.reg a = 0 →
    exec (.segmentStore a b c) s = .next t →
    ∀ u : State, u.mem = t.mem → u.pc = s.reg b → u.fetch = .ok (s.reg c)

/-- Output only grows, by at most one byte a step, and only by output (R160, R161). -/
def Obligations.OutputGrowsOnlyByTheOutputInstruction : Prop :=
  ∀ s t : State, step s = .next t →
    t.out = s.out ∨
    ∃ c byte, FetchesInstr s (.output c) ∧ t.out = s.out ++ [byte] ∧
      byte.toNat = (s.reg c).toNat

/-- Along a run of any length the bytes already output stay, in order (R160, R162), and the configuration
(`PC_PAST_BOUND`, R97) is never written, whatever the host answers between the steps. -/
def Obligations.OutputIsKeptAlongARun : Prop :=
  ∀ (host : Nat → HostEvent) (k : Nat) (s : State), s.out <+: (observe host k s).out ∧
    ∀ t, (observe host k s).final = some t → t.config = s.config

/-- A fault ends the run at once: the status is `Faulted(cause)`, no state is observed, and any prefix of
the bytes output may have been delivered (R181, R186, R162). The outcome form of a fault is log 14, the
free prefix log 13. What the host does before the step is the host's own. -/
def Obligations.FaultEndsTheRunAndHidesTheState : Prop :=
  ∀ (s : State) (f : Fault),
    (step s = .fault f → statusAfter s = .faulted f) ∧
    ∀ (host : Nat → HostEvent) (k : Nat), step (s.afterEvent (host 0)) = .fault f →
      observe host (k + 1) s = ⟨.faulted f, s.out, none⟩ ∧
      ∀ bytes, Delivered (observe host (k + 1) s) bytes ↔ bytes <+: s.out

/-- Once a run is over its observation is final: no further step changes it, a fault is never cleared
(R99, R101), and a longer safe run is safe at every point. After a successful end there is a final state,
and what has been delivered is every byte output up to it, in order (R162, D10; log 13). All of it holds
whatever the host answers between the steps. -/
def Obligations.OutcomeOfARunIsFinal : Prop :=
  ∀ (host : Nat → HostEvent) (k j : Nat) (s : State),
    ((observe host k s).status ≠ .running → observe host (k + j) s = observe host k s) ∧
    (SafeFor host (k + j) s → SafeFor host k s) ∧
    ((observe host k s).status.success = true →
      (∃ t, (observe host k s).final = some t ∧ t.run = (observe host k s).status ∧
        t.out = (observe host k s).out) ∧
      ∀ bytes, Delivered (observe host k s) bytes ↔ bytes = (observe host k s).out)

/-- The run ends successfully only by halt, or at pc = bound, or past it where the parameter says `end`
(R95 to R97, R187). The parameter is the spec's own decision (D5; log 4). -/
def Obligations.RunEndsOnlyByHaltOrTheBound : Prop :=
  ∀ s t : State, step s = .next t → t.run ≠ .running →
    (t.run = .halted ∧ FetchesInstr s .halt) ∨
    (t.run = .ended ∧ (s.pc = s.bound ∨ (s.bound < s.pc ∧ s.config.pcPastBound = .endRun)))
end

