-- ==== Sys2Proof/Laws/Decode.lean ====
section
/-! SUPPORT. The decoder by opcode, the fields as quotients and remainders of the word, and what the
encoder's words hold in each field. -/

namespace Sys2Proof

theorem fieldA_eq (w : Word) : fieldA w = Fin.ofNat 8 (w.toNat / 2 ^ 6) := by
  simp [fieldA, bits, Fin.ext_iff]

theorem fieldB_eq (w : Word) : fieldB w = Fin.ofNat 8 (w.toNat / 2 ^ 3) := by
  simp [fieldB, bits, Fin.ext_iff]

theorem fieldC_eq (w : Word) : fieldC w = Fin.ofNat 8 w.toNat := by
  simp [fieldC, bits, Fin.ext_iff]

theorem fieldAImm_eq (w : Word) : fieldAImm w = Fin.ofNat 8 (w.toNat / 2 ^ 25) := by
  simp [fieldAImm, bits, Fin.ext_iff]

theorem fieldImm_eq (w : Word) : fieldImm w = BitVec.ofNat 25 w.toNat := by
  apply BitVec.eq_of_toNat_eq
  simp [fieldImm, bits]

theorem fieldOpcode_eq (w : Word) : fieldOpcode w = BitVec.ofNat 4 (w.toNat / 2 ^ 28) := by
  apply BitVec.eq_of_toNat_eq
  simp [fieldOpcode, bits]

theorem Operation.opcode_lt (o : Operation) : o.opcode.toNat < 14 := by cases o <;> decide

theorem operationOf_opcode (o : Operation) : operationOf o.opcode = some o := by cases o <;> rfl

/-- The opcode decides the operation, the operation decides which fields are read (R78). -/
theorem decode_of_opcode {w : Word} {o : Operation} (h : w.toNat / 2 ^ 28 = o.opcode.toNat) :
    decode w = .ok (instrOf o w) := by
  have hop : fieldOpcode w = o.opcode := by
    rw [fieldOpcode_eq, h, BitVec.ofNat_toNat, BitVec.setWidth_eq]
  simp only [decode, hop, operationOf_opcode]

theorem decode_of_illegal {w : Word} (h : 14 ≤ w.toNat / 2 ^ 28) :
    decode w = .error (.illegal (fieldOpcode w)) := by
  have hw := w.isLt
  have h' : w.toNat / 2 ^ 28 = 14 ∨ w.toNat / 2 ^ 28 = 15 := by omega
  unfold decode
  rw [fieldOpcode_eq]
  rcases h' with h' | h' <;> rw [h'] <;> rfl

/-- Every word is of one of the two kinds (R83). -/
theorem decode_cases (w : Word) :
    (∃ o : Operation, w.toNat / 2 ^ 28 = o.opcode.toNat ∧ decode w = .ok (instrOf o w)) ∨
      (14 ≤ w.toNat / 2 ^ 28 ∧ decode w = .error (.illegal (fieldOpcode w))) := by
  by_cases h : 14 ≤ w.toNat / 2 ^ 28
  · exact .inr ⟨h, decode_of_illegal h⟩
  · have table : ∀ n, n < 14 → ∃ o ∈ Operation.all, n = o.opcode.toNat := by decide
    obtain ⟨o, -, ho⟩ := table _ (Nat.lt_of_not_le h)
    exact .inl ⟨o, ho, decode_of_opcode ho⟩

theorem decode_error {w : Word} {e : DecodeError} (h : decode w = .error e) :
    e = .illegal (fieldOpcode w) := by
  rcases decode_cases w with ⟨o, -, hd⟩ | ⟨-, hd⟩
  · rw [hd] at h; cases h
  · rw [hd] at h; exact (Except.error.inj h).symm

/-! ### The encoder's words -/

theorem threeRegisterWord_toNat (o : Operation) (a b c : Reg) :
    (threeRegisterWord o a b c).toNat =
      2 ^ 28 * o.opcode.toNat + 2 ^ 6 * a.val + 2 ^ 3 * b.val + c.val := by
  have := o.opcode_lt
  simp only [threeRegisterWord, BitVec.toNat_ofNat]
  omega

theorem immediateWord_toNat (o : Operation) (a : Reg) (imm : BitVec 25) :
    (immediateWord o a imm).toNat = 2 ^ 28 * o.opcode.toNat + 2 ^ 25 * a.val + imm.toNat := by
  have := o.opcode_lt
  have := imm.isLt
  simp only [immediateWord, BitVec.toNat_ofNat]
  omega

theorem threeRegisterWord_opcode (o : Operation) (a b c : Reg) :
    (threeRegisterWord o a b c).toNat / 2 ^ 28 = o.opcode.toNat := by
  rw [threeRegisterWord_toNat]; omega

theorem immediateWord_opcode (o : Operation) (a : Reg) (imm : BitVec 25) :
    (immediateWord o a imm).toNat / 2 ^ 28 = o.opcode.toNat := by
  have := imm.isLt
  rw [immediateWord_toNat]; omega

@[simp] theorem fieldA_threeRegisterWord (o : Operation) (a b c : Reg) :
    fieldA (threeRegisterWord o a b c) = a := by
  rw [fieldA_eq, threeRegisterWord_toNat, Fin.ext_iff, Fin.val_ofNat]; omega

@[simp] theorem fieldB_threeRegisterWord (o : Operation) (a b c : Reg) :
    fieldB (threeRegisterWord o a b c) = b := by
  rw [fieldB_eq, threeRegisterWord_toNat, Fin.ext_iff, Fin.val_ofNat]; omega

@[simp] theorem fieldC_threeRegisterWord (o : Operation) (a b c : Reg) :
    fieldC (threeRegisterWord o a b c) = c := by
  rw [fieldC_eq, threeRegisterWord_toNat, Fin.ext_iff, Fin.val_ofNat]; omega

@[simp] theorem fieldAImm_immediateWord (o : Operation) (a : Reg) (imm : BitVec 25) :
    fieldAImm (immediateWord o a imm) = a := by
  have := imm.isLt
  rw [fieldAImm_eq, immediateWord_toNat, Fin.ext_iff, Fin.val_ofNat]; omega

@[simp] theorem fieldImm_immediateWord (o : Operation) (a : Reg) (imm : BitVec 25) :
    fieldImm (immediateWord o a imm) = imm := by
  have := imm.isLt
  apply BitVec.eq_of_toNat_eq
  rw [fieldImm_eq, immediateWord_toNat, BitVec.toNat_ofNat]; omega

/-! ### Words as bytes -/

theorem wordOfBytes_toNat (b0 b1 b2 b3 : Byte) : (wordOfBytes b0 b1 b2 b3).toNat =
    2 ^ 24 * b0.toNat + 2 ^ 16 * b1.toNat + 2 ^ 8 * b2.toNat + b3.toNat := by
  have := b0.isLt
  have := b1.isLt
  have := b2.isLt
  have := b3.isLt
  simp only [wordOfBytes, BitVec.toNat_ofNat]
  omega

/-- The bytes of a word in file order make the word (R54). -/
theorem wordOfBytes_of_bytesOfWord (w : Word) :
    wordOfBytes (BitVec.ofNat 8 (bits w 31 24)) (BitVec.ofNat 8 (bits w 23 16))
      (BitVec.ofNat 8 (bits w 15 8)) (BitVec.ofNat 8 (bits w 7 0)) = w := by
  apply BitVec.eq_of_toNat_eq
  have := w.isLt
  rw [wordOfBytes_toNat]
  simp only [bits, BitVec.toNat_ofNat]
  omega

/-- Decoding a word's bytes decodes the word. -/
theorem decodeBytes_bytesOfWord (w : Word) (rest : List Byte) :
    decodeBytes (bytesOfWord w ++ rest) = (decode w).map fun i => (i, rest) := by
  simp only [bytesOfWord, List.cons_append, List.nil_append, decodeBytes,
    wordOfBytes_of_bytesOfWord]

theorem decodeTableWord_eq (nbits w : Nat) :
    decodeTableWord nbits w = (decode (tableWord nbits w)).toOption := by
  generalize hv : tableWord nbits w = v
  have h := decodeBytes_bytesOfWord v []
  rw [List.append_nil] at h
  simp only [decodeTableWord, hv, h]
  rcases decode v with e | i <;> simp [Except.map, Except.toOption]

end Sys2Proof
end

