-- ==== Sys2Proof/Laws/Memory.lean ====
section
/-! SUPPORT. The laws of the Address Space: what one word reads after a write, that every operation keeps
the canonical form, and for each transaction everything it can answer. -/

namespace Sys2Proof.Machine

/-! ### Cells -/

theorem readCells_of_wf_below {len off : Nat} :
    ∀ {lo : Nat} {cells : List (Nat × Word)}, cellsWf len lo cells = true → off < lo →
      readCells cells off = unlistedWord := by
  intro lo cells
  induction cells generalizing lo with
  | nil => intros; rfl
  | cons p cells ih =>
    obtain ⟨k, u⟩ := p
    intro h hlt
    simp only [cellsWf, Bool.and_eq_true, decide_eq_true_eq] at h
    have hk : k ≠ off := by omega
    simp only [readCells, hk, if_false]
    exact ih h.2 (by omega)

/-- A word reads what was written to it. -/
theorem readCells_writeCells_same {len : Nat} (off : Nat) (v : Word) :
    ∀ {lo : Nat} {cells : List (Nat × Word)}, cellsWf len lo cells = true →
      readCells (writeCells cells off v) off = v := by
  intro lo cells
  induction cells generalizing lo with
  | nil =>
    intro _
    by_cases hv : v = unlistedWord <;> simp [writeCells, readCells, hv]
  | cons p cells ih =>
    obtain ⟨k, u⟩ := p
    intro h
    simp only [cellsWf, Bool.and_eq_true, decide_eq_true_eq] at h
    have tail : readCells cells off = unlistedWord ∨ k < off := by
      by_cases hk : k < off
      · exact .inr hk
      · exact .inl (readCells_of_wf_below h.2 (by omega))
    simp only [writeCells]
    split
    · next hlt =>
      have hk : k ≠ off := by omega
      split
      · next hv =>
        rw [hv]
        simp only [readCells, hk, if_false]
        exact tail.resolve_right (by omega)
      · simp [readCells]
    · split
      · next hge heq =>
        split
        · next hv =>
          rw [hv]
          exact tail.resolve_right (by omega)
        · simp [readCells]
      · next hge hne =>
        have hk : k ≠ off := fun e => hne e.symm
        simp only [readCells, hk, if_false]
        exact ih h.2

/-- A write leaves every other word alone. -/
theorem readCells_writeCells_other {off o : Nat} (v : Word) (h : o ≠ off)
    (cells : List (Nat × Word)) : readCells (writeCells cells off v) o = readCells cells o := by
  induction cells with
  | nil =>
    by_cases hv : v = unlistedWord <;> simp [writeCells, readCells, hv, Ne.symm h]
  | cons p cells ih =>
    obtain ⟨k, u⟩ := p
    simp only [writeCells]
    split
    · split
      · rfl
      · simp [readCells, Ne.symm h]
    · split
      · next heq =>
        subst heq
        split <;> simp [readCells, Ne.symm h]
      · simp [readCells, ih]

theorem cellsWf_mono {len : Nat} {cells : List (Nat × Word)} {lo lo' : Nat}
    (h : cellsWf len lo cells = true) (hle : lo' ≤ lo) : cellsWf len lo' cells = true := by
  cases cells with
  | nil => rfl
  | cons p cells =>
    simp only [cellsWf, Bool.and_eq_true, decide_eq_true_eq] at h ⊢
    exact ⟨⟨⟨by omega, h.1.1.2⟩, h.1.2⟩, h.2⟩

/-- A write inside the segment keeps the canonical form. -/
theorem cellsWf_writeCells {len off : Nat} (v : Word) (hoff : off < len) :
    ∀ {lo : Nat} {cells : List (Nat × Word)}, cellsWf len lo cells = true → lo ≤ off →
      cellsWf len lo (writeCells cells off v) = true := by
  intro lo cells
  induction cells generalizing lo with
  | nil =>
    intro _ hlo
    by_cases hv : v = unlistedWord <;> simp [writeCells, cellsWf, hv, hlo, hoff]
  | cons p cells ih =>
    obtain ⟨k, u⟩ := p
    intro h hlo
    have h' := h
    simp only [cellsWf, Bool.and_eq_true, decide_eq_true_eq] at h'
    simp only [writeCells]
    split
    · next hlt =>
      split
      · exact h
      · next hv =>
        simp only [cellsWf, Bool.and_eq_true, decide_eq_true_eq]
        exact ⟨⟨⟨hlo, hoff⟩, hv⟩, ⟨⟨by omega, h'.1.1.2⟩, h'.1.2⟩, h'.2⟩
    · split
      · next heq =>
        subst heq
        split
        · exact cellsWf_mono h'.2 (by omega)
        · next hv =>
          simp only [cellsWf, Bool.and_eq_true, decide_eq_true_eq]
          exact ⟨⟨⟨hlo, hoff⟩, hv⟩, h'.2⟩
      · simp only [cellsWf, Bool.and_eq_true, decide_eq_true_eq]
        exact ⟨h'.1, ih h'.2 (by omega)⟩

theorem readCells_cellsOfWords (ws : List Word) (base off : Nat) :
    readCells (cellsOfWords base ws) off =
      if base ≤ off then (ws[off - base]?).getD unlistedWord else unlistedWord := by
  induction ws generalizing base with
  | nil => simp [cellsOfWords, readCells]
  | cons w ws ih =>
    simp only [cellsOfWords]
    by_cases hoff : base = off
    · subst hoff
      by_cases hw : w = unlistedWord
      · simp [hw, ih]
      · simp [hw, readCells]
    · by_cases hle : base ≤ off
      · have hs : off - base = (off - (base + 1)) + 1 := by omega
        have hle' : base + 1 ≤ off := by omega
        by_cases hw : w = unlistedWord <;> simp [hw, readCells, hoff, ih, hle, hle', hs]
      · have hle' : ¬ base + 1 ≤ off := by omega
        by_cases hw : w = unlistedWord <;> simp [hw, readCells, hoff, ih, hle, hle']

theorem cellsWf_cellsOfWords (ws : List Word) (base len : Nat) (h : base + ws.length ≤ len) :
    cellsWf len base (cellsOfWords base ws) = true := by
  induction ws generalizing base with
  | nil => rfl
  | cons w ws ih =>
    simp only [List.length_cons] at h
    have ih' := ih (base + 1) (by omega)
    simp only [cellsOfWords]
    split
    · exact cellsWf_mono ih' (by omega)
    · next hw =>
      simp only [cellsWf, Bool.and_eq_true, decide_eq_true_eq]
      exact ⟨⟨⟨le_refl _, by omega⟩, hw⟩, ih'⟩

/-! ### Segments -/

@[simp] theorem Segment.zeros_len (n : Word) : (Segment.zeros n).len = n := rfl

@[simp] theorem Segment.zeros_get (n off : Word) : (Segment.zeros n).get off = 0 := rfl

@[simp] theorem Segment.zeros_wf (n : Word) : (Segment.zeros n).wf = true := rfl

@[simp] theorem Segment.set_len (g : Segment) (off v : Word) : (g.set off v).len = g.len := rfl

theorem Segment.get_set_same {g : Segment} (h : g.wf = true) (off v : Word) :
    (g.set off v).get off = v := readCells_writeCells_same _ _ h

theorem Segment.get_set_other (g : Segment) {off o : Word} (v : Word) (h : o ≠ off) :
    (g.set off v).get o = g.get o :=
  readCells_writeCells_other v (fun e => h (BitVec.eq_of_toNat_eq e)) _

theorem Segment.set_wf {g : Segment} (h : g.wf = true) {off : Word} (hoff : off < g.len)
    (v : Word) : (g.set off v).wf = true := cellsWf_writeCells v hoff h (Nat.zero_le _)

theorem Segment.ofWords_wf {ws : List Word} (h : ws.length ≤ Config.maxSegmentWords) :
    (Segment.ofWords ws).wf = true := by
  refine cellsWf_cellsOfWords ws 0 _ ?_
  have hlen : ws.length < 2 ^ 32 := by simp only [Config.maxSegmentWords] at h; omega
  have hmod : ws.length % 4294967296 = ws.length := Nat.mod_eq_of_lt hlen
  simp [Segment.ofWords, hmod]

/-- The loaded program has the words of the file (R201). -/
theorem Segment.ofWords_get (ws : List Word) (off : Word) :
    (Segment.ofWords ws).get off = (ws[off.toNat]?).getD 0 := by
  simp [Segment.ofWords, Segment.get, readCells_cellsOfWords, unlistedWord]

/-! ### The segment table -/

theorem Memory.segment?_eq_some {m : Memory} {id : Word} {g : Segment} :
    m.segment? id = some g ↔ m.slots[id.toNat]? = some (.live g) := by
  unfold Memory.segment?
  split <;> simp_all

theorem Memory.segment?_lt {m : Memory} {id : Word} {g : Segment} (h : m.segment? id = some g) :
    id.toNat < m.tableLen := by
  have := Memory.segment?_eq_some.1 h
  exact (List.getElem?_eq_some_iff.1 this).1

theorem Memory.segment?_eq_none {m : Memory} {id : Word} :
    m.segment? id = none ↔ m.tableLen ≤ id.toNat ∨ m.slots[id.toNat]? = some .tombstone := by
  unfold Memory.segment? Memory.tableLen
  rcases hs : m.slots[id.toNat]? with _ | (g | _)
  · simpa using hs
  · have := (List.getElem?_eq_some_iff.1 hs).1
    simp [this]
  · simp

theorem Memory.valid_eq_true {m : Memory} {id : Word} :
    m.valid id = true ↔ ∃ g, m.segment? id = some g := Option.isSome_iff_exists

theorem Memory.valid_eq_false {m : Memory} {id : Word} :
    m.valid id = false ↔ m.segment? id = none := by
  simp [Memory.valid]

theorem Memory.word?_eq_some {m : Memory} {id off w : Word} :
    m.word? id off = some w ↔ ∃ g, m.segment? id = some g ∧ off < g.len ∧ g.get off = w := by
  unfold Memory.word?
  rcases m.segment? id with _ | g
  · simp
  · by_cases h : off < g.len <;> simp [h]

theorem Memory.word?_eq_none {m : Memory} {id off : Word} :
    m.word? id off = none ↔ ∀ g, m.segment? id = some g → g.len ≤ off := by
  unfold Memory.word?
  rcases m.segment? id with _ | g
  · simp
  · by_cases h : off < g.len <;> simp [h, BitVec.not_lt.1, BitVec.not_le.2]

theorem Memory.segment?_wf {m : Memory} (h : m.wf = true) {id : Word} {g : Segment}
    (hg : m.segment? id = some g) : g.wf = true := by
  have := List.mem_of_getElem? (Memory.segment?_eq_some.1 hg)
  exact List.all_eq_true.1 h _ this

@[simp] theorem Memory.putSlot_tableLen (m : Memory) (id : Word) (slot : Slot) :
    (m.putSlot id slot).tableLen = m.tableLen := by
  simp [Memory.putSlot, Memory.tableLen]

@[simp] theorem Memory.putSlot_pool (m : Memory) (id : Word) (slot : Slot) :
    (m.putSlot id slot).pool = m.pool := rfl

theorem Memory.putSlot_slot {m : Memory} {id : Word} (slot : Slot) (h : id.toNat < m.tableLen)
    (k : Nat) :
    (m.putSlot id slot).slots[k]? = if k = id.toNat then some slot else m.slots[k]? := by
  unfold Memory.tableLen at h
  simp only [Memory.putSlot, List.getElem?_set]
  by_cases hk : id.toNat = k
  · subst hk; simp [h]
  · simp [hk, Ne.symm hk]

/-- Putting a segment in a slot changes what that identifier names and nothing else. -/
theorem Memory.segment?_putSlot_live {m : Memory} {id : Word} (g : Segment)
    (h : id.toNat < m.tableLen) (j : Word) :
    (m.putSlot id (.live g)).segment? j = if j = id then some g else m.segment? j := by
  unfold Memory.segment?
  rw [Memory.putSlot_slot _ h]
  by_cases hj : j = id
  · simp [hj]
  · simp [hj, BitVec.toNat_inj]

theorem Memory.segment?_putSlot_tombstone {m : Memory} {id : Word} (h : id.toNat < m.tableLen)
    (j : Word) :
    (m.putSlot id .tombstone).segment? j = if j = id then none else m.segment? j := by
  unfold Memory.segment?
  rw [Memory.putSlot_slot _ h]
  by_cases hj : j = id
  · simp [hj]
  · simp [hj, BitVec.toNat_inj]

theorem Memory.putSlot_wf {m : Memory} (h : m.wf = true) (id : Word) {slot : Slot}
    (hs : slot.wf = true) : (m.putSlot id slot).wf = true := by
  simp only [Memory.wf, Memory.putSlot, List.all_eq_true] at h ⊢
  intro x hx
  rcases List.mem_or_eq_of_mem_set hx with hx | rfl
  · exact h x hx
  · exact hs

/-- A slot appended to the table is named by the old table length; the others name what they named
(R43, R48). -/
theorem Memory.segment?_append {m : Memory} (g : Segment) (h : m.tableLen < Config.maxSlots)
    (j : Word) : ({ m with slots := m.slots ++ [.live g] } : Memory).segment? j =
      if j = BitVec.ofNat 32 m.tableLen then some g else m.segment? j := by
  have hj : j = BitVec.ofNat 32 m.tableLen ↔ j.toNat = m.slots.length := by
    simp only [Config.maxSlots, Memory.tableLen] at h
    rw [← BitVec.toNat_inj, BitVec.toNat_ofNat, Memory.tableLen, Nat.mod_eq_of_lt h]
  simp only [Memory.segment?, hj]
  rcases Nat.lt_trichotomy j.toNat m.slots.length with hlt | heq | hgt
  · simp [List.getElem?_append_left hlt, Nat.ne_of_lt hlt]
  · simp [heq]
  · have hn : m.slots.length ≤ j.toNat := Nat.le_of_lt hgt
    have hn' : (m.slots ++ [Slot.live g]).length ≤ j.toNat := by simpa using hgt
    rw [List.getElem?_eq_none hn, List.getElem?_eq_none hn']
    simp [Nat.ne_of_gt hgt]

theorem Memory.word?_of_zeros {m : Memory} {id n off : Word}
    (h : m.segment? id = some (Segment.zeros n)) (hoff : off < n) : m.word? id off = some 0 :=
  Memory.word?_eq_some.2 ⟨_, h, hoff, rfl⟩

/-- The accesses R46 and R47 refuse. -/
theorem Memory.word?_eq_none_of_invalid {m : Memory} {id off : Word}
    (h : m.tableLen ≤ id.toNat ∨ m.slots[id.toNat]? = some .tombstone ∨
      ∃ g, m.slots[id.toNat]? = some (.live g) ∧ g.len ≤ off) : m.word? id off = none := by
  rw [Memory.word?_eq_none]
  intro g hg
  rcases h with h | h | ⟨g', h, hl⟩
  · rw [Memory.segment?_eq_none.2 (.inl h)] at hg; cases hg
  · rw [Memory.segment?_eq_none.2 (.inr h)] at hg; cases hg
  · rw [Memory.segment?_eq_some.2 h] at hg; cases hg; exact hl

/-- Where any slot is live the table has a slot 0. -/
theorem Memory.zero_lt_tableLen {m : Memory} {id : Word} {g : Segment} (h : m.segment? id = some g) :
    (0 : Word).toNat < m.tableLen := Nat.zero_lt_of_lt (Memory.segment?_lt h)

/-! ### Transactions -/

theorem Memory.read_eq_ok {m : Memory} {id off w : Word} :
    m.read id off = .ok w ↔ m.word? id off = some w := by
  unfold Memory.read
  rcases m.word? id off with _ | v <;> simp

theorem Memory.read_eq_error {m : Memory} {id off : Word} {f : Fault} :
    m.read id off = .error f ↔ m.word? id off = none ∧ f = .invalidSegmentAccess id off := by
  unfold Memory.read
  rcases m.word? id off with _ | v <;> simp [eq_comm]

/-- Everything a store can do when it succeeds. -/
theorem Memory.write_eq_ok {m m' : Memory} {id off v : Word} :
    m.write id off v = .ok m' ↔
      ∃ g, m.segment? id = some g ∧ off < g.len ∧ m' = m.putSlot id (.live (g.set off v)) := by
  unfold Memory.write
  rcases m.segment? id with _ | g
  · simp
  · by_cases h : off < g.len <;> simp [h, @eq_comm _ m']

theorem Memory.write_eq_error {m : Memory} {id off v : Word} {f : Fault} :
    m.write id off v = .error f ↔ m.word? id off = none ∧ f = .invalidSegmentAccess id off := by
  unfold Memory.write Memory.word?
  rcases m.segment? id with _ | g
  · simp [@eq_comm _ f]
  · by_cases h : off < g.len <;> simp [h, @eq_comm _ f]

theorem Memory.write_wf {m m' : Memory} {id off v : Word} (h : m.wf = true)
    (hw : m.write id off v = .ok m') : m'.wf = true := by
  obtain ⟨g, hg, hoff, rfl⟩ := Memory.write_eq_ok.1 hw
  exact Memory.putSlot_wf h id (Segment.set_wf (Memory.segment?_wf h hg) hoff v)

/-- A store changes what one address reads, and nothing else. -/
theorem Memory.word?_write {m m' : Memory} {id off v : Word} (h : m.wf = true)
    (hw : m.write id off v = .ok m') (j o : Word) :
    m'.word? j o = if j = id ∧ o = off then some v else m.word? j o := by
  obtain ⟨g, hg, hoff, rfl⟩ := Memory.write_eq_ok.1 hw
  unfold Memory.word?
  rw [Memory.segment?_putSlot_live _ (Memory.segment?_lt hg)]
  by_cases hj : j = id
  · subst hj
    by_cases ho : o = off
    · subst ho
      simp [hoff, Segment.get_set_same (Memory.segment?_wf h hg)]
    · simp [ho, hg, Segment.get_set_other g v ho]
  · simp [hj]

/-- A store to one segment leaves the others alone. -/
theorem Memory.write_segment?_other {m m' : Memory} {id off v j : Word}
    (h : m.write id off v = .ok m') (hj : j ≠ id) : m'.segment? j = m.segment? j := by
  obtain ⟨g, hg, -, rfl⟩ := Memory.write_eq_ok.1 h
  rw [Memory.segment?_putSlot_live _ (Memory.segment?_lt hg), if_neg hj]

/-- The two ways an allocation succeeds (R48). -/
theorem Memory.alloc_eq_ok {m m' : Memory} {yes : Bool} {n id : Word} :
    m.alloc yes n = .ok (id, m') ↔ yes = true ∧
      ((∃ rest, m.pool = id :: rest ∧
          m' = { m with pool := rest }.putSlot id (.live (Segment.zeros n))) ∨
        (m.pool = [] ∧ m.tableLen < Config.maxSlots ∧ id = BitVec.ofNat 32 m.tableLen ∧
          m' = { m with slots := m.slots ++ [.live (Segment.zeros n)] })) := by
  unfold Memory.alloc
  cases yes
  · simp
  · rcases hp : m.pool with _ | ⟨top, rest⟩
    · by_cases h : m.tableLen < Config.maxSlots <;> simp [h, @eq_comm _ id, @eq_comm _ m']
    · simp only [if_true, Except.ok.injEq, Prod.mk.injEq, true_and, List.cons.injEq]
      constructor
      · rintro ⟨rfl, rfl⟩
        exact .inl ⟨rest, ⟨rfl, rfl⟩, rfl⟩
      · rintro (⟨r, ⟨rfl, rfl⟩, rfl⟩ | ⟨h, -⟩)
        · exact ⟨rfl, rfl⟩
        · simp at h

theorem Memory.alloc_eq_error {m : Memory} {yes : Bool} {n : Word} {f : Fault} :
    m.alloc yes n = .error f ↔
      (yes = false ∨ (m.pool = [] ∧ Config.maxSlots ≤ m.tableLen)) ∧ f = .resourceExhausted n := by
  unfold Memory.alloc
  cases yes
  · simp [eq_comm]
  · rcases hp : m.pool with _ | ⟨top, rest⟩
    · by_cases h : m.tableLen < Config.maxSlots
      · simp [h, Nat.not_le.2 h]
      · simp [h, Nat.not_lt.1 h, eq_comm]
    · simp

theorem Memory.alloc_wf {m m' : Memory} {yes : Bool} {n id : Word} (h : m.wf = true)
    (ha : m.alloc yes n = .ok (id, m')) : m'.wf = true := by
  obtain ⟨-, ⟨rest, -, rfl⟩ | ⟨-, -, -, rfl⟩⟩ := Memory.alloc_eq_ok.1 ha
  · exact Memory.putSlot_wf (m := { m with pool := rest }) h id rfl
  · simp only [Memory.wf, List.all_append, Bool.and_eq_true] at h ⊢
    exact ⟨h, rfl⟩

theorem Memory.free_eq_ok {m m' : Memory} {id : Word} :
    m.free id = .ok m' ↔ id ≠ 0 ∧ m.valid id = true ∧
      m' = { m.putSlot id .tombstone with pool := id :: m.pool } := by
  unfold Memory.free
  by_cases h0 : id = 0#32
  · simp [h0]
  · rcases hv : m.valid id with _ | _ <;> simp [h0, @eq_comm _ m']

theorem Memory.free_eq_error {m : Memory} {id : Word} {f : Fault} :
    m.free id = .error f ↔ (id = 0 ∧ f = .unmapProgramSegment id) ∨
      (id ≠ 0 ∧ m.valid id = false ∧ f = .invalidSegmentAccess id 0) := by
  unfold Memory.free
  by_cases h0 : id = 0#32
  · simp [h0, @eq_comm _ f]
  · rcases hv : m.valid id with _ | _ <;> simp [h0, @eq_comm _ f]

theorem Memory.free_wf {m m' : Memory} {id : Word} (h : m.wf = true) (hf : m.free id = .ok m') :
    m'.wf = true := by
  obtain ⟨-, -, rfl⟩ := Memory.free_eq_ok.1 hf
  exact Memory.putSlot_wf h id rfl

theorem Memory.replace0_eq_ok {m m' : Memory} {yes : Bool} {id : Word} {r : Replacement} :
    m.replace0 yes id = .ok (r, m') ↔ (id = 0 ∧ r = .noReplace ∧ m' = m) ∨
      (id ≠ 0 ∧ yes = true ∧ ∃ g, m.segment? id = some g ∧ r = .replaced g.len ∧
        m' = m.putSlot 0 (.live g)) := by
  unfold Memory.replace0
  by_cases h0 : id = 0#32
  · simp [h0, @eq_comm _ r, @eq_comm _ m']
  · rcases m.segment? id with _ | g
    · simp [h0]
    · cases yes <;> simp [h0, @eq_comm _ r, @eq_comm _ m']

theorem Memory.replace0_eq_error {m : Memory} {yes : Bool} {id : Word} {f : Fault} :
    m.replace0 yes id = .error f ↔ id ≠ 0 ∧
      ((m.segment? id = none ∧ f = .invalidSegmentAccess id 0) ∨
        (yes = false ∧ ∃ g, m.segment? id = some g ∧ f = .resourceExhausted g.len)) := by
  unfold Memory.replace0
  by_cases h0 : id = 0#32
  · simp [h0]
  · rcases m.segment? id with _ | g
    · simp [h0, @eq_comm _ f]
    · cases yes <;> simp [h0, @eq_comm _ f]

theorem Memory.replace0_wf {m m' : Memory} {yes : Bool} {id : Word} {r : Replacement}
    (h : m.wf = true) (hr : m.replace0 yes id = .ok (r, m')) : m'.wf = true := by
  obtain ⟨-, -, rfl⟩ | ⟨-, -, g, hg, -, rfl⟩ := Memory.replace0_eq_ok.1 hr
  · exact h
  · exact Memory.putSlot_wf h 0 (slot := .live g) (Memory.segment?_wf h hg)

end Sys2Proof.Machine
end

