-- ==== Sys2Proof/Laws/State.lean ====
section
/-! SUPPORT. One lemma per field per update of the state, so that no proof unfolds a record update. -/

namespace Sys2Proof.Machine

/-! ### Writing a register -/

@[simp] theorem State.setReg_pc (s : State) (r : Reg) (v : Word) : (s.setReg r v).pc = s.pc := rfl

@[simp] theorem State.setReg_bound (s : State) (r : Reg) (v : Word) : (s.setReg r v).bound = s.bound := rfl

@[simp] theorem State.setReg_run (s : State) (r : Reg) (v : Word) : (s.setReg r v).run = s.run := rfl

@[simp] theorem State.setReg_mem (s : State) (r : Reg) (v : Word) : (s.setReg r v).mem = s.mem := rfl

@[simp] theorem State.setReg_out (s : State) (r : Reg) (v : Word) : (s.setReg r v).out = s.out := rfl

@[simp] theorem State.setReg_input (s : State) (r : Reg) (v : Word) : (s.setReg r v).input = s.input := rfl

@[simp] theorem State.setReg_capacity (s : State) (r : Reg) (v : Word) : (s.setReg r v).capacity = s.capacity := rfl

@[simp] theorem State.setReg_config (s : State) (r : Reg) (v : Word) : (s.setReg r v).config = s.config := rfl

@[simp] theorem State.setReg_released (s : State) (r : Reg) (v : Word) : (s.setReg r v).released = s.released := rfl

@[simp] theorem State.reg_setReg_same (s : State) (r : Reg) (v : Word) :
    (s.setReg r v).reg r = v := by
  simp [State.reg, State.setReg]

theorem State.reg_setReg_other (s : State) {r q : Reg} (v : Word) (h : q ≠ r) :
    (s.setReg r v).reg q = s.reg q := by
  have h' : r.val ≠ q.val := fun e => h (Fin.ext e.symm)
  simp [State.reg, State.setReg, h']

theorem State.reg_setReg (s : State) (r q : Reg) (v : Word) :
    (s.setReg r v).reg q = if q = r then v else s.reg q := by
  split
  · next h => rw [h, State.reg_setReg_same]
  · next h => exact State.reg_setReg_other s v h

theorem State.reg_of_regs {s t : State} (h : t.regs = s.regs) (q : Reg) : t.reg q = s.reg q := by
  simp [State.reg, h]

/-! ### A used capacity answer -/

@[simp] theorem State.capacityAsked_regs (s : State) : (s.capacityAsked).regs = s.regs := rfl

@[simp] theorem State.capacityAsked_pc (s : State) : (s.capacityAsked).pc = s.pc := rfl

@[simp] theorem State.capacityAsked_bound (s : State) : (s.capacityAsked).bound = s.bound := rfl

@[simp] theorem State.capacityAsked_run (s : State) : (s.capacityAsked).run = s.run := rfl

@[simp] theorem State.capacityAsked_mem (s : State) : (s.capacityAsked).mem = s.mem := rfl

@[simp] theorem State.capacityAsked_out (s : State) : (s.capacityAsked).out = s.out := rfl

@[simp] theorem State.capacityAsked_input (s : State) : (s.capacityAsked).input = s.input := rfl

@[simp] theorem State.capacityAsked_config (s : State) : (s.capacityAsked).config = s.config := rfl

@[simp] theorem State.capacityAsked_released (s : State) : (s.capacityAsked).released = s.released := rfl

@[simp] theorem State.capacityAsked_capacity (s : State) : (s.capacityAsked).capacity = s.capacity.tail := rfl

/-! ### Teardown -/

@[simp] theorem State.teardown_regs (s : State) : (s.teardown).regs = s.regs := rfl

@[simp] theorem State.teardown_pc (s : State) : (s.teardown).pc = s.pc := rfl

@[simp] theorem State.teardown_bound (s : State) : (s.teardown).bound = s.bound := rfl

@[simp] theorem State.teardown_run (s : State) : (s.teardown).run = s.run := rfl

@[simp] theorem State.teardown_mem (s : State) : (s.teardown).mem = s.mem := rfl

@[simp] theorem State.teardown_out (s : State) : (s.teardown).out = s.out := rfl

@[simp] theorem State.teardown_input (s : State) : (s.teardown).input = s.input := rfl

@[simp] theorem State.teardown_capacity (s : State) : (s.teardown).capacity = s.capacity := rfl

@[simp] theorem State.teardown_config (s : State) : (s.teardown).config = s.config := rfl

@[simp] theorem State.teardown_released (s : State) : (s.teardown).released = true := rfl

/-! ### Output -/

@[simp] theorem State.outByte_regs (s : State) (b : Byte) : (s.outByte b).regs = s.regs := rfl

@[simp] theorem State.outByte_pc (s : State) (b : Byte) : (s.outByte b).pc = s.pc := rfl

@[simp] theorem State.outByte_bound (s : State) (b : Byte) : (s.outByte b).bound = s.bound := rfl

@[simp] theorem State.outByte_run (s : State) (b : Byte) : (s.outByte b).run = s.run := rfl

@[simp] theorem State.outByte_mem (s : State) (b : Byte) : (s.outByte b).mem = s.mem := rfl

@[simp] theorem State.outByte_input (s : State) (b : Byte) : (s.outByte b).input = s.input := rfl

@[simp] theorem State.outByte_capacity (s : State) (b : Byte) : (s.outByte b).capacity = s.capacity := rfl

@[simp] theorem State.outByte_config (s : State) (b : Byte) : (s.outByte b).config = s.config := rfl

@[simp] theorem State.outByte_released (s : State) (b : Byte) : (s.outByte b).released = s.released := rfl

@[simp] theorem State.outByte_out (s : State) (b : Byte) : (s.outByte b).out = s.out ++ [b] := rfl

/-! ### The host's side of the input source -/

@[simp] theorem State.endInput_regs (s : State) : (s.endInput).regs = s.regs := rfl

@[simp] theorem State.endInput_pc (s : State) : (s.endInput).pc = s.pc := rfl

@[simp] theorem State.endInput_bound (s : State) : (s.endInput).bound = s.bound := rfl

@[simp] theorem State.endInput_run (s : State) : (s.endInput).run = s.run := rfl

@[simp] theorem State.endInput_mem (s : State) : (s.endInput).mem = s.mem := rfl

@[simp] theorem State.endInput_out (s : State) : (s.endInput).out = s.out := rfl

@[simp] theorem State.endInput_capacity (s : State) : (s.endInput).capacity = s.capacity := rfl

@[simp] theorem State.endInput_config (s : State) : (s.endInput).config = s.config := rfl

@[simp] theorem State.endInput_released (s : State) : (s.endInput).released = s.released := rfl

theorem State.supplyInput_pending {s : State} (h : s.input.tail = .unanswered) (v : Word) :
    (s.supplyInput v).input.pending = s.input.pending ++ [v] := by
  simp [State.supplyInput, InputSource.supply, h]

theorem State.supplyInput_of_answered {s : State} (h : s.input.tail ≠ .unanswered) (v : Word) :
    s.supplyInput v = s := by
  have hs : s.input.supply v = s.input := by
    unfold InputSource.supply
    rcases ht : s.input.tail with _ | _ | _ <;> simp_all
  rw [State.supplyInput, hs]

theorem State.endInput_tail {s : State} (h : s.input.tail = .unanswered) :
    s.endInput.input.tail = .exhausted := by
  simp [State.endInput, InputSource.close, h]

/-! ### What the host does reaches the input source only -/

@[simp] theorem State.afterEvent_regs (s : State) (e : HostEvent) : (s.afterEvent e).regs = s.regs := by
  cases e <;> rfl

@[simp] theorem State.afterEvent_pc (s : State) (e : HostEvent) : (s.afterEvent e).pc = s.pc := by
  cases e <;> rfl

@[simp] theorem State.afterEvent_bound (s : State) (e : HostEvent) : (s.afterEvent e).bound = s.bound := by
  cases e <;> rfl

@[simp] theorem State.afterEvent_run (s : State) (e : HostEvent) : (s.afterEvent e).run = s.run := by
  cases e <;> rfl

@[simp] theorem State.afterEvent_mem (s : State) (e : HostEvent) : (s.afterEvent e).mem = s.mem := by
  cases e <;> rfl

@[simp] theorem State.afterEvent_out (s : State) (e : HostEvent) : (s.afterEvent e).out = s.out := by
  cases e <;> rfl

@[simp] theorem State.afterEvent_capacity (s : State) (e : HostEvent) : (s.afterEvent e).capacity = s.capacity := by
  cases e <;> rfl

@[simp] theorem State.afterEvent_config (s : State) (e : HostEvent) : (s.afterEvent e).config = s.config := by
  cases e <;> rfl

@[simp] theorem State.afterEvent_released (s : State) (e : HostEvent) : (s.afterEvent e).released = s.released := by
  cases e <;> rfl

@[simp] theorem State.afterEvent_quiet (s : State) : s.afterEvent .quiet = s := rfl

/-- A host that answers bytes keeps the contract of the source (R163). -/
theorem InputSource.mem_supply {src : InputSource} {v w : Word} (h : w ∈ (src.supply v).pending) :
    w ∈ src.pending ∨ w = v := by
  unfold InputSource.supply at h
  split at h
  · simpa using h
  · exact .inl h
  · exact .inl h

@[simp] theorem InputSource.close_pending (src : InputSource) : src.close.pending = src.pending := by
  unfold InputSource.close
  split <;> rfl

end Sys2Proof.Machine
end

