-- ==== Sys2Proof/Laws/Ops.lean ====
section
/-! SUPPORT. One lemma per shared operation of the meanings: all that it can answer. -/

namespace Sys2Proof.Machine

@[simp] theorem retire_eq_next {s t : State} : retire s = .next t ↔ t = { s with pc := s.pc + 1 } := by
  simp [retire, eq_comm]

@[simp] theorem retire_ne_fault {s : State} {f : Fault} : retire s ≠ .fault f := by simp [retire]

@[simp] theorem raise_ne_next {f : Fault} {t : State} : raise f ≠ .next t := by simp [raise]

@[simp] theorem raise_eq_fault {f g : Fault} : raise f = .fault g ↔ g = f := by
  simp [raise, eq_comm]

@[simp] theorem isNonzero_eq_true {v : Word} : isNonzero v = true ↔ v ≠ 0 := by simp [isNonzero]

@[simp] theorem exceedsByte_eq_true {v : Word} : exceedsByte v = true ↔ 256 ≤ v.toNat := by
  simp [exceedsByte]

@[simp] theorem exceedsByte_eq_false {v : Word} : exceedsByte v = false ↔ v.toNat < 256 := by
  simp [exceedsByte]

theorem State.fetch_eq (s : State) : s.fetch = s.mem.read 0 s.pc := rfl

theorem State.currentWord_eq (s : State) : s.currentWord = s.mem.word? 0 s.pc := rfl

/-- Everything `InByte()` can answer (R163, R165). -/
theorem InputSource.take_cases (src : InputSource) :
    (∃ v rest, src.pending = v :: rest ∧
        src.take = some (.byte v, { src with pending := rest })) ∨
      (src.pending = [] ∧ src.tail = .exhausted ∧ src.take = some (.endOfInput, src)) ∨
      (src.pending = [] ∧ src.tail = .unanswered ∧ src.take = none) ∨
      (∃ j p, src.pending = [] ∧ src.tail = .endless j p ∧
        src.take = some (.byte ((Config.inputStream j p).setWidth 32),
          { src with tail := .endless j (p + 1) })) := by
  obtain ⟨pending, tail⟩ := src
  rcases pending with _ | ⟨v, rest⟩
  · rcases tail with _ | _ | ⟨j, p⟩ <;> simp [InputSource.take]
  · exact .inl ⟨v, rest, rfl, rfl⟩

/-- A byte of an endless stream, zero-extended, is a byte (R163). -/
theorem endless_lt (j p : Nat) :
    ((Config.inputStream j p).setWidth 32).toNat = (Config.inputStream j p).toNat := by
  have := (Config.inputStream j p).isLt
  simp only [BitVec.toNat_setWidth]
  omega

/-! ### Arithmetic -/

@[simp] theorem addMod_toNat (x y : Word) : (addMod x y).toNat = (x.toNat + y.toNat) % 2 ^ 32 := by
  simp [addMod]

@[simp] theorem mulMod_toNat (x y : Word) : (mulMod x y).toNat = (x.toNat * y.toNat) % 2 ^ 32 := by
  simp [mulMod]

@[simp] theorem divFloor_toNat (x y : Word) : (divFloor x y).toNat = x.toNat / y.toNat := by
  have h : x.toNat / y.toNat < 4294967296 := lt_of_le_of_lt (Nat.div_le_self _ _) x.isLt
  simp [divFloor, Nat.mod_eq_of_lt h]

theorem addMod_eq_add (x y : Word) : addMod x y = x + y := by
  apply BitVec.eq_of_toNat_eq; simp

theorem mulMod_eq_mul (x y : Word) : mulMod x y = x * y := by
  apply BitVec.eq_of_toNat_eq; simp

@[simp] theorem immediateValue_toNat (imm : BitVec 25) : (immediateValue imm).toNat = imm.toNat := by
  have h : imm.toNat < 4294967296 := lt_trans imm.isLt (by decide)
  simp [immediateValue, Nat.mod_eq_of_lt h]

end Sys2Proof.Machine
end

