-- ==== Sys2Proof/Laws/Exec.lean ====
section
/-! SUPPORT. For each instruction, everything `exec` can answer: its next states and its faults. Later
proofs cite these and never unfold a meaning. -/

namespace Sys2Proof.Machine

variable {s t : State} {f : Fault}

theorem exec_conditionalMove_next {a b c : Reg} : exec (.conditionalMove a b c) s = .next t ↔
    (s.reg c ≠ 0 ∧ t = { s.setReg a (s.reg b) with pc := s.pc + 1 }) ∨
      (s.reg c = 0 ∧ t = { s with pc := s.pc + 1 }) := by
  simp only [exec, execConditionalMove]
  split
  · next h => simp at h; simp [h]
  · next h => simp at h; simp [h]

theorem exec_add_next {a b c : Reg} : exec (.add a b c) s = .next t ↔
    t = { s.setReg a (addMod (s.reg b) (s.reg c)) with pc := s.pc + 1 } := by
  simp [exec, execAdd]

theorem exec_multiply_next {a b c : Reg} : exec (.multiply a b c) s = .next t ↔
    t = { s.setReg a (mulMod (s.reg b) (s.reg c)) with pc := s.pc + 1 } := by
  simp [exec, execMultiply]

theorem exec_divide_next {a b c : Reg} : exec (.divide a b c) s = .next t ↔ s.reg c ≠ 0 ∧
    t = { s.setReg a (divFloor (s.reg b) (s.reg c)) with pc := s.pc + 1 } := by
  simp only [exec, execDivide]
  split <;> simp_all

theorem exec_divide_fault {a b c : Reg} : exec (.divide a b c) s = .fault f ↔
    s.reg c = 0 ∧ f = .divideByZero s.pc (s.mem.word? 0 s.pc) := by
  simp only [exec, execDivide]
  split <;> simp_all [State.currentWord]

theorem exec_bitwiseNand_next {a b c : Reg} : exec (.bitwiseNand a b c) s = .next t ↔
    t = { s.setReg a (nand (s.reg b) (s.reg c)) with pc := s.pc + 1 } := by
  simp [exec, execBitwiseNand]

theorem exec_segmentLoad_next {a b c : Reg} : exec (.segmentLoad a b c) s = .next t ↔
    ∃ w, s.mem.word? (s.reg b) (s.reg c) = some w ∧
      t = { s.setReg a w with pc := s.pc + 1 } := by
  simp only [exec, execSegmentLoad, loadAddress, State.segAddr]
  rcases h : s.mem.read (s.reg b) (s.reg c) with g | w
  · simp [(Memory.read_eq_error.1 h).1]
  · simp [Memory.read_eq_ok.1 h]

theorem exec_segmentLoad_fault {a b c : Reg} : exec (.segmentLoad a b c) s = .fault f ↔
    s.mem.word? (s.reg b) (s.reg c) = none ∧ f = .invalidSegmentAccess (s.reg b) (s.reg c) := by
  simp only [exec, execSegmentLoad, loadAddress, State.segAddr]
  rcases h : s.mem.read (s.reg b) (s.reg c) with g | w
  · obtain ⟨h1, rfl⟩ := Memory.read_eq_error.1 h
    simp [h1]
  · simp [Memory.read_eq_ok.1 h]

theorem exec_segmentStore_next {a b c : Reg} : exec (.segmentStore a b c) s = .next t ↔
    ∃ m, s.mem.write (s.reg a) (s.reg b) (s.reg c) = .ok m ∧
      t = { s with mem := m, pc := s.pc + 1 } := by
  simp only [exec, execSegmentStore, storeAddress, State.segAddr]
  rcases s.mem.write (s.reg a) (s.reg b) (s.reg c) with g | m <;> simp

theorem exec_segmentStore_fault {a b c : Reg} : exec (.segmentStore a b c) s = .fault f ↔
    s.mem.word? (s.reg a) (s.reg b) = none ∧ f = .invalidSegmentAccess (s.reg a) (s.reg b) := by
  rw [← Memory.write_eq_error (v := s.reg c)]
  simp only [exec, execSegmentStore, storeAddress, State.segAddr]
  rcases s.mem.write (s.reg a) (s.reg b) (s.reg c) with g | m <;> simp [@eq_comm _ f]

theorem exec_halt_next : exec .halt s = .next t ↔
    t = { s with run := .halted, released := true } := by
  simp [exec, execHalt, State.teardown, eq_comm]

theorem exec_mapSegment_next {b c : Reg} : exec (.mapSegment b c) s = .next t ↔
    ∃ id m, s.mem.alloc s.canHold (s.reg c) = .ok (id, m) ∧
      t = { s.setReg b id with mem := m, capacity := s.capacity.tail, pc := s.pc + 1 } := by
  simp only [exec, execMapSegment]
  rcases s.mem.alloc s.canHold (s.reg c) with g | ⟨id, m⟩
  · simp
  · simp [State.setReg, State.capacityAsked]

theorem exec_mapSegment_fault {b c : Reg} : exec (.mapSegment b c) s = .fault f ↔
    (s.canHold = false ∨ (s.mem.pool = [] ∧ Config.maxSlots ≤ s.mem.tableLen)) ∧
      f = .resourceExhausted (s.reg c) := by
  rw [← Memory.alloc_eq_error]
  simp only [exec, execMapSegment]
  rcases s.mem.alloc s.canHold (s.reg c) with g | ⟨id, m⟩ <;> simp [@eq_comm _ f]

theorem exec_unmapSegment_next {c : Reg} : exec (.unmapSegment c) s = .next t ↔
    ∃ m, s.mem.free (s.reg c) = .ok m ∧ t = { s with mem := m, pc := s.pc + 1 } := by
  simp only [exec, execUnmapSegment]
  split
  · next h =>
    simp only [raise_ne_next, false_iff, not_exists, not_and]
    intro m hm
    exact absurd h (Memory.free_eq_ok.1 hm).1
  · rcases s.mem.free (s.reg c) with g | m <;> simp

theorem exec_unmapSegment_fault {c : Reg} : exec (.unmapSegment c) s = .fault f ↔
    (s.reg c = 0 ∧ f = .unmapProgramSegment 0) ∨
      (s.reg c ≠ 0 ∧ s.mem.valid (s.reg c) = false ∧ f = .invalidSegmentAccess (s.reg c) 0) := by
  simp only [exec, execUnmapSegment]
  split
  · next h => simp [h]
  · next h =>
    rcases hf : s.mem.free (s.reg c) with g | m
    · have := Memory.free_eq_error.1 hf
      simp only [h, false_and, false_or, ne_eq, not_false_eq_true, true_and] at this
      simp only [raise_eq_fault, h, false_and, false_or, ne_eq, not_false_eq_true, true_and]
      rw [this.2]
      simp [this.1]
    · have := (Memory.free_eq_ok.1 hf).2.1
      simp only [retire_ne_fault, h, this, false_and, false_or, Bool.true_eq_false, and_false]

theorem exec_output_next {c : Reg} : exec (.output c) s = .next t ↔ (s.reg c).toNat < 256 ∧
    t = { s with out := s.out ++ [BitVec.ofNat 8 (s.reg c).toNat], pc := s.pc + 1 } := by
  simp only [exec, execOutput, State.outByte]
  split
  · next h => simp at h; simp [Nat.not_lt.2 h]
  · next h => simp at h; simp [h]

theorem exec_output_fault {c : Reg} : exec (.output c) s = .fault f ↔
    256 ≤ (s.reg c).toNat ∧ f = .outputOutOfRange (s.reg c) := by
  simp only [exec, execOutput]
  split
  · next h => simp at h; simp [h]
  · next h => simp at h; simp [Nat.not_le.2 h]

theorem not_exceedsByte_endless (j p : Nat) :
    exceedsByte ((Config.inputStream j p).setWidth 32) = false := by
  have := (Config.inputStream j p).isLt
  rw [exceedsByte, endless_lt]
  simp only [decide_eq_false_iff_not]
  omega

theorem exec_input_next {c : Reg} : exec (.input c) s = .next t ↔
    (∃ v rest, s.input.pending = v :: rest ∧ v.toNat < 256 ∧
      t = { s.setReg c v with input := { s.input with pending := rest }, pc := s.pc + 1 }) ∨
    (s.input.pending = [] ∧ s.input.tail = .exhausted ∧
      t = { s.setReg c 0xFFFFFFFF with pc := s.pc + 1 }) ∨
    (s.input.pending = [] ∧ s.input.tail = .unanswered ∧ t = s) ∨
    (∃ j p, s.input.pending = [] ∧ s.input.tail = .endless j p ∧
      t = { s.setReg c ((Config.inputStream j p).setWidth 32) with
        input := { s.input with tail := .endless j (p + 1) }, pc := s.pc + 1 }) := by
  simp only [exec, execInput]
  obtain ⟨v, rest, hp, ht⟩ | ⟨hp, he, ht⟩ | ⟨hp, he, ht⟩ | ⟨j, p, hp, he, ht⟩ := s.input.take_cases
  · rw [ht]
    simp only [hp, List.cons.injEq]
    split
    · next h => simp at h; simp [Nat.not_lt.2 h]
    · next h => simp at h; simp [h, State.setReg]
  · rw [ht]; simp [hp, he, State.setReg]
  · rw [ht]; simp [hp, he, eq_comm]
  · have hb := not_exceedsByte_endless j p
    rw [ht]
    simp only [hb, Bool.false_eq_true, if_false]
    simp [hp, he, State.setReg]

theorem exec_input_fault {c : Reg} : exec (.input c) s = .fault f ↔
    ∃ v rest, s.input.pending = v :: rest ∧ 256 ≤ v.toNat ∧ f = .inputOutOfRange v := by
  simp only [exec, execInput]
  obtain ⟨v, rest, hp, ht⟩ | ⟨hp, he, ht⟩ | ⟨hp, he, ht⟩ | ⟨j, p, hp, he, ht⟩ := s.input.take_cases
  · rw [ht]
    simp only [hp, List.cons.injEq]
    split
    · next h => simp at h; simp [h]
    · next h => simp at h; simp [Nat.not_le.2 h]
  · rw [ht]; simp [hp]
  · rw [ht]; simp [hp]
  · rw [ht]
    simp only [not_exceedsByte_endless, Bool.false_eq_true, if_false]
    simp [hp]

theorem exec_loadProgram_next {b c : Reg} : exec (.loadProgram b c) s = .next t ↔
    (s.reg b = 0 ∧ t = { s with pc := s.reg c }) ∨
    (s.reg b ≠ 0 ∧ s.canHold = true ∧ ∃ g, s.mem.segment? (s.reg b) = some g ∧
      t = { s with
        mem := s.mem.putSlot 0 (.live g), capacity := s.capacity.tail, pc := s.reg c,
        bound := g.len }) := by
  simp only [exec, execLoadProgram]
  rcases h : s.mem.replace0 s.canHold (s.reg b) with g | ⟨r, m⟩
  · obtain ⟨h0, ⟨hn, -⟩ | ⟨hy, -⟩⟩ := Memory.replace0_eq_error.1 h
    · simp only [raise_ne_next, h0, hn, false_and, false_or, reduceCtorEq, exists_false, and_false]
    · simp only [raise_ne_next, h0, hy, false_and, and_false, Bool.false_eq_true, or_false]
  · obtain ⟨h0, rfl, rfl⟩ | ⟨h0, hy, g, hg, rfl, rfl⟩ := Memory.replace0_eq_ok.1 h
    · rw [h0]; simp [@eq_comm _ t]
    · simp only [h0, hy, hg, false_and, false_or, ne_eq, not_false_eq_true, true_and,
        Option.some.injEq, exists_eq_left', State.capacityAsked, Host.Outcome.next.injEq]
      exact eq_comm

theorem exec_loadProgram_fault {b c : Reg} : exec (.loadProgram b c) s = .fault f ↔
    s.reg b ≠ 0 ∧
      ((s.mem.valid (s.reg b) = false ∧ f = .invalidSegmentAccess (s.reg b) 0) ∨
        (s.canHold = false ∧ ∃ g, s.mem.segment? (s.reg b) = some g ∧
          f = .resourceExhausted g.len)) := by
  rw [Memory.valid_eq_false, ← Memory.replace0_eq_error]
  simp only [exec, execLoadProgram]
  rcases h : s.mem.replace0 s.canHold (s.reg b) with g | ⟨_ | _, m⟩ <;> simp [@eq_comm _ f]

theorem exec_loadValue_next {a : Reg} {imm : BitVec 25} : exec (.loadValue a imm) s = .next t ↔
    t = { s.setReg a (immediateValue imm) with pc := s.pc + 1 } := by
  simp [exec, execLoadValue]

/-- The instructions without a fault of their own (R183). -/
theorem exec_conditionalMove_ne_fault {a b c : Reg} :
    exec (.conditionalMove a b c) s ≠ .fault f := by
  simp only [exec, execConditionalMove]
  split <;> simp

theorem exec_add_ne_fault {a b c : Reg} : exec (.add a b c) s ≠ .fault f := by
  simp [exec, execAdd]

theorem exec_multiply_ne_fault {a b c : Reg} : exec (.multiply a b c) s ≠ .fault f := by
  simp [exec, execMultiply]

theorem exec_bitwiseNand_ne_fault {a b c : Reg} : exec (.bitwiseNand a b c) s ≠ .fault f := by
  simp [exec, execBitwiseNand]

theorem exec_halt_ne_fault : exec .halt s ≠ .fault f := by
  simp [exec, execHalt]

theorem exec_loadValue_ne_fault {a : Reg} {imm : BitVec 25} :
    exec (.loadValue a imm) s ≠ .fault f := by
  simp [exec, execLoadValue]

end Sys2Proof.Machine
end

