-- ==== Sys2Proof/Laws/Invariant.lean ====
section
/-! SUPPORT. The invariant: how to show it of a written-out state, and what it gives at once. -/

namespace Sys2Proof.Machine

variable {s : State}

/-- The invariant from checks that can be decided on a concrete state. -/
theorem Inv.of_checks (memory : s.mem.wf = true)
    (program : (s.mem.segment? 0).map Segment.len = some s.bound) (nodup : s.mem.pool.Nodup)
    (freed : ∀ id ∈ s.mem.pool, s.mem.slots[id.toNat]? = some .tombstone)
    (pooled : ∀ k, k < s.mem.tableLen → s.mem.slots[k]? = some .tombstone →
      BitVec.ofNat 32 k ∈ s.mem.pool)
    (fits : s.mem.tableLen ≤ Config.maxSlots) (released : s.released = true ↔ s.run = .halted)
    (notFaulted : ∀ f, s.run ≠ .faulted f) : Inv s where
  memory := memory
  program := program
  poolNodup := nodup
  poolFreed id := by
    refine ⟨freed id, fun h => ?_⟩
    have hk := pooled id.toNat (List.getElem?_eq_some_iff.1 h).1 h
    rwa [BitVec.ofNat_toNat, BitVec.setWidth_eq] at hk
  tableFits := fits
  released := released
  notFaulted := notFaulted

/-- Segment 0 is live and has `bound` words (R27, R42). -/
theorem Inv.programSegment (h : Inv s) : ∃ g, s.mem.segment? 0 = some g ∧ g.len = s.bound := by
  simpa using h.program

/-- The top of the pool names a tombstoned slot of the table (R48, R50). -/
theorem Inv.poolTop (h : Inv s) {id : Word} {rest : List Word} (hp : s.mem.pool = id :: rest) :
    s.mem.slots[id.toNat]? = some .tombstone ∧ id.toNat < s.mem.tableLen := by
  have ht := (h.poolFreed id).1 (hp ▸ List.mem_cons_self)
  exact ⟨ht, (List.getElem?_eq_some_iff.1 ht).1⟩

/-- An identifier in the pool names no live segment. -/
theorem Inv.pool_not_live (h : Inv s) {id : Word} (hp : id ∈ s.mem.pool) :
    s.mem.segment? id = none :=
  Memory.segment?_eq_none.2 (.inr ((h.poolFreed id).1 hp))

/-- The invariant speaks of the memory, bound, run and the released storage only. -/
theorem Inv.congr {t : State} (h : Inv s) (hm : t.mem = s.mem) (hb : t.bound = s.bound)
    (hr : t.run = s.run) (hl : t.released = s.released) : Inv t where
  memory := hm ▸ h.memory
  program := by rw [hm, hb]; exact h.program
  poolNodup := hm ▸ h.poolNodup
  poolFreed := hm ▸ h.poolFreed
  tableFits := hm ▸ h.tableFits
  released := by rw [hr, hl]; exact h.released
  notFaulted := by rw [hr]; exact h.notFaulted

end Sys2Proof.Machine
end

