-- ==== Sys2Proof/Laws/Loader.lean ====
section
/-! SUPPORT. What the loader and the placing of a word leave: the length of the program, its words, and
the canonical form. -/

namespace Sys2Proof.Machine

theorem cellsWf_len_mono {len len' : Nat} (h : len ≤ len') :
    ∀ {lo : Nat} {cells : List (Nat × Word)}, cellsWf len lo cells = true →
      cellsWf len' lo cells = true := by
  intro lo cells
  induction cells generalizing lo with
  | nil => intro _; rfl
  | cons p cells ih =>
    intro hc
    simp only [cellsWf, Bool.and_eq_true, decide_eq_true_eq] at hc ⊢
    exact ⟨⟨⟨hc.1.1.1, by omega⟩, hc.1.2⟩, ih hc.2⟩

theorem fetchIndex_ne_max (pc : Word) : fetchIndex pc ≠ 0xFFFFFFFF := by
  unfold fetchIndex
  split
  · decide
  · assumption

theorem Segment.grownTo_len (g : Segment) {pc : Word} (h : pc ≠ 0xFFFFFFFF) :
    pc < (g.grownTo pc).len ∧ g.len.toNat ≤ (g.grownTo pc).len.toNat := by
  have h' : pc.toNat ≠ 4294967295 := fun e => h (BitVec.eq_of_toNat_eq e)
  have := pc.isLt
  simp only [Segment.grownTo]
  split
  · exact ⟨by assumption, le_refl _⟩
  · next hlt =>
    have hs : (pc + 1).toNat = pc.toNat + 1 := by
      rw [BitVec.toNat_add]
      simp
      omega
    rw [BitVec.lt_def] at hlt ⊢
    omega

theorem Segment.grownTo_wf {g : Segment} (hg : g.wf = true) {pc : Word} (h : pc ≠ 0xFFFFFFFF) :
    (g.grownTo pc).wf = true := cellsWf_len_mono (Segment.grownTo_len g h).2 hg

theorem Segment.withWordAt_wf {g : Segment} (hg : g.wf = true) {pc : Word} (h : pc ≠ 0xFFFFFFFF)
    (w : Word) : (g.withWordAt pc w).wf = true :=
  Segment.set_wf (Segment.grownTo_wf hg h) (Segment.grownTo_len g h).1 w

theorem Segment.withWordAt_get {g : Segment} (hg : g.wf = true) {pc : Word}
    (h : pc ≠ 0xFFFFFFFF) (w : Word) : (g.withWordAt pc w).get pc = w :=
  Segment.get_set_same (Segment.grownTo_wf hg h) pc w

/-- The program segment is long enough to fetch at `pc`. -/
theorem Segment.lt_withWordAt_len (g : Segment) {pc : Word} (h : pc ≠ 0xFFFFFFFF) (w : Word) :
    pc < (g.withWordAt pc w).len := (Segment.grownTo_len g h).1

theorem Memory.programSegment_wf {m : Memory} (h : m.wf = true) : m.programSegment.wf = true := by
  unfold Memory.programSegment
  rcases hg : m.segment? 0 with _ | g
  · rfl
  · exact Memory.segment?_wf h hg

theorem Memory.segment?_withProgram (m : Memory) (g : Segment) :
    (m.withProgram g).segment? 0 = some g := by
  obtain ⟨slots, pool⟩ := m
  cases slots <;> rfl

@[simp] theorem Memory.withProgram_pool (m : Memory) (g : Segment) :
    (m.withProgram g).pool = m.pool := by
  obtain ⟨slots, pool⟩ := m
  cases slots <;> rfl

theorem Memory.withProgram_eq_putSlot {m : Memory} {g₀ : Segment} (h : m.segment? 0 = some g₀)
    (g : Segment) : m.withProgram g = m.putSlot 0 (.live g) := by
  obtain ⟨slots, pool⟩ := m
  cases slots with
  | nil => exact absurd (Memory.segment?_lt h) (Nat.not_lt_zero _)
  | cons x rest => rfl

/-- The placed word is the one the next step fetches. -/
theorem State.placeWord_word? {s : State} (h : s.mem.wf = true) (w : Word) :
    (s.placeWord w).mem.word? 0 (s.placeWord w).pc = some w := by
  refine Memory.word?_eq_some.2 ⟨_, Memory.segment?_withProgram _ _, ?_, ?_⟩
  · exact Segment.lt_withWordAt_len _ (fetchIndex_ne_max _) w
  · exact Segment.withWordAt_get (Memory.programSegment_wf h) (fetchIndex_ne_max _) w

theorem State.placeWord_pc_lt (s : State) (w : Word) :
    (s.placeWord w).pc < (s.placeWord w).bound :=
  Segment.lt_withWordAt_len _ (fetchIndex_ne_max _) w

theorem tableWord_toNat (w : Word) : tableWord 32 w.toNat = w := by
  apply BitVec.eq_of_toNat_eq
  have := w.isLt
  simp only [tableWord, BitVec.toNat_ofNat]
  omega

theorem State.withFetchWord_toNat (s : State) (w : Word) :
    s.withFetchWord 32 w.toNat = s.placeWord w := by
  rw [State.withFetchWord, tableWord_toNat]

/-- The segment the loader fills has the length of the file's words (R201, D17). -/
theorem Segment.ofWords_len {ws : List Word} (h : ws.length ≤ Config.maxSegmentWords) :
    (Segment.ofWords ws).len.toNat = ws.length := by
  simp only [Config.maxSegmentWords] at h
  simp only [Segment.ofWords, BitVec.toNat_ofNat]
  omega

theorem load_eq_some {regs : Vector Word 8} {src : InputSource} {capacity : List Bool}
    {config : Config} {words : List Word} {s : State} :
    load regs src capacity config words = some s ↔
      words.length ≤ Config.maxSegmentWords ∧ s = startState regs src capacity config words := by
  unfold load
  by_cases h : words.length ≤ Config.maxSegmentWords <;> simp [h, eq_comm]

/-- Reset is `Load` of the empty program with the default parameters (R200). -/
theorem reset_eq_load : load initRegs ⟨initInputPending, initInputTail⟩ initCapacity initConfig [] =
    some State.reset := by decide

end Sys2Proof.Machine
end

