-- ==== Sys2Proof/Laws/PerInstr.lean ====
section
/-! SUPPORT. Statements about every instruction as syntax, one lemma per constructor. `EncodedOpcode`: the
encoder puts the operation's number of the opcode table in bits 31 to 28 (spec/30_encoding.md R72, R85). -/

namespace Sys2Proof.Laws.EncodedOpcode

def Statement (i : Instr) : Prop := (encode i).toNat / 2 ^ 28 = i.operation.opcode.toNat

theorem conditionalMove (a b c : Reg) : Statement (.conditionalMove a b c) :=
  threeRegisterWord_opcode _ _ _ _

theorem segmentLoad (a b c : Reg) : Statement (.segmentLoad a b c) :=
  threeRegisterWord_opcode _ _ _ _

theorem segmentStore (a b c : Reg) : Statement (.segmentStore a b c) :=
  threeRegisterWord_opcode _ _ _ _

theorem add (a b c : Reg) : Statement (.add a b c) := threeRegisterWord_opcode _ _ _ _

theorem multiply (a b c : Reg) : Statement (.multiply a b c) := threeRegisterWord_opcode _ _ _ _

theorem divide (a b c : Reg) : Statement (.divide a b c) := threeRegisterWord_opcode _ _ _ _

theorem bitwiseNand (a b c : Reg) : Statement (.bitwiseNand a b c) :=
  threeRegisterWord_opcode _ _ _ _

theorem halt : Statement .halt := threeRegisterWord_opcode _ _ _ _

theorem mapSegment (b c : Reg) : Statement (.mapSegment b c) := threeRegisterWord_opcode _ _ _ _

theorem unmapSegment (c : Reg) : Statement (.unmapSegment c) := threeRegisterWord_opcode _ _ _ _

theorem output (c : Reg) : Statement (.output c) := threeRegisterWord_opcode _ _ _ _

theorem input (c : Reg) : Statement (.input c) := threeRegisterWord_opcode _ _ _ _

theorem loadProgram (b c : Reg) : Statement (.loadProgram b c) := threeRegisterWord_opcode _ _ _ _

theorem loadValue (a : Reg) (imm : BitVec 25) : Statement (.loadValue a imm) :=
  immediateWord_opcode _ _ _

end Sys2Proof.Laws.EncodedOpcode
end

