-- ==== Sys2Proof/Laws/Step.lean ====
section
/-! SUPPORT. Everything one step of the loop can answer. -/

namespace Sys2Proof.Machine

variable {s t : State} {f : Fault}

/-- A step's next state: the run has ended at or past the bound, or an instruction was executed. -/
theorem step_eq_next : step s = .next t ↔ s.run = .running ∧
    ((t = { s with run := .ended } ∧
        (s.pc = s.bound ∨ (s.bound < s.pc ∧ s.config.pcPastBound = .endRun))) ∨
      ∃ i, FetchesInstr s i ∧ exec i s = .next t) := by
  unfold step FetchesInstr
  rcases hr : s.run with _ | _ | _ | _ <;> simp only [reduceCtorEq, false_and, true_and]
  by_cases h1 : s.pc = s.bound
  · have h2 : ¬ s.bound < s.bound := BitVec.lt_irrefl _
    simp [h1, h2, eq_comm]
  · by_cases h3 : s.bound < s.pc
    · have h4 : ¬ s.pc < s.bound := BitVec.lt_asymm h3
      rcases hc : s.config.pcPastBound with _ | _ <;> simp [h1, h3, h4, @eq_comm _ t]
    · have h4 : s.pc < s.bound := BitVec.lt_of_le_ne (BitVec.not_lt.1 h3) h1
      simp only [h1, h3, h4, if_false, false_and, or_false, and_false, false_or, true_and]
      rcases hf : s.fetch with g | w
      · have hn : s.mem.word? 0#32 s.pc = none := (Memory.read_eq_error.1 hf).1
        simp [hn]
      · have hw : s.mem.word? 0#32 s.pc = some w := Memory.read_eq_ok.1 hf
        rcases hd : decode w with e | i
        · simp [hw, hd]
        · simp [hw, hd]

theorem step_eq_fault : step s = .fault f ↔ s.run = .running ∧
    ((s.bound < s.pc ∧ s.config.pcPastBound = .fault ∧ f = .pcOutOfRange s.pc s.bound) ∨
      (s.pc < s.bound ∧ s.mem.word? 0 s.pc = none ∧ f = .invalidSegmentAccess 0 s.pc) ∨
      ∃ w, s.pc < s.bound ∧ s.mem.word? 0 s.pc = some w ∧
        ((∃ e, decode w = .error e ∧ f = .dispatchFault (fieldOpcode w) s.pc w) ∨
          ∃ i, decode w = .ok i ∧ exec i s = .fault f)) := by
  unfold step
  rcases hr : s.run with _ | _ | _ | _ <;> simp only [reduceCtorEq, false_and, true_and]
  by_cases h1 : s.pc = s.bound
  · have h2 : ¬ s.bound < s.bound := BitVec.lt_irrefl _
    simp [h1, h2]
  · by_cases h3 : s.bound < s.pc
    · have h4 : ¬ s.pc < s.bound := BitVec.lt_asymm h3
      rcases hc : s.config.pcPastBound with _ | _ <;> simp [h1, h3, h4]
    · have h4 : s.pc < s.bound := BitVec.lt_of_le_ne (BitVec.not_lt.1 h3) h1
      simp only [h1, h3, h4, if_false, false_and, false_or, true_and]
      rcases hf : s.fetch with g | w
      · obtain ⟨hn, rfl⟩ := Memory.read_eq_error.1 hf
        have hn' : s.mem.word? 0#32 s.pc = none := hn
        simp [hn']
      · have hw : s.mem.word? 0#32 s.pc = some w := Memory.read_eq_ok.1 hf
        rcases hd : decode w with e | i
        · simp [hw, hd]
        · simp [hw, hd]

theorem step_of_not_running (h : s.run ≠ .running) : step s = .refused .runOver := by
  unfold step
  rcases hr : s.run with _ | _ | _ | _ <;> simp_all

end Sys2Proof.Machine
end

