-- ==== Sys2Proof/Laws/Text.lean ====
section
/-! SUPPORT. Assembler text: what is written reads back (spec/30_encoding.md R85). -/

namespace Sys2Proof

/-- A digit of decimal text. -/
def IsDigit (c : Char) : Prop := ∃ d, d < 10 ∧ c = Char.ofNat (48 + d)

theorem digitValue_digit {d : Nat} (h : d < 10) : digitValue (Char.ofNat (48 + d)) = some d := by
  have table : ∀ d, d < 10 → digitValue (Char.ofNat (48 + d)) = some d := by decide
  exact table d h

theorem IsDigit.ne {c : Char} (h : IsDigit c) : c ≠ ' ' ∧ c ≠ ',' ∧ c ≠ 'r' := by
  have table : ∀ d, d < 10 → Char.ofNat (48 + d) ≠ ' ' ∧ Char.ofNat (48 + d) ≠ ',' ∧
      Char.ofNat (48 + d) ≠ 'r' := by decide
  obtain ⟨d, hd, rfl⟩ := h
  exact table d hd

/-- The digits of `n` read as `n`, whatever follows. -/
theorem numberAfter_decimalBefore {fuel n : Nat} (rest : List Char) (h : n < fuel) :
    numberAfter 0 (decimalBefore fuel n rest) = numberAfter n rest := by
  induction fuel generalizing n rest with
  | zero => omega
  | succ fuel ih =>
    have hd := digitValue_digit (Nat.mod_lt n (by omega : 0 < 10))
    rw [decimalBefore]
    split
    · simp only [numberAfter, hd]
      congr 1
      omega
    · rw [ih _ (by omega)]
      simp only [numberAfter, hd]
      congr 1
      omega

theorem isDigit_of_mem_decimalBefore {fuel n : Nat} {rest : List Char}
    (h : ∀ c ∈ rest, IsDigit c) : ∀ c ∈ decimalBefore fuel n rest, IsDigit c := by
  induction fuel generalizing n rest with
  | zero => exact h
  | succ fuel ih =>
    have hr : ∀ c ∈ Char.ofNat (48 + n % 10) :: rest, IsDigit c := by
      intro c hc
      rcases List.mem_cons.1 hc with rfl | hc
      · exact ⟨_, Nat.mod_lt _ (by omega), rfl⟩
      · exact h c hc
    rw [decimalBefore]
    split
    · exact hr
    · exact ih hr

theorem decimalBefore_ne_nil {fuel n : Nat} {rest : List Char} (h : rest ≠ []) :
    decimalBefore fuel n rest ≠ [] := by
  induction fuel generalizing n rest with
  | zero => exact h
  | succ fuel ih =>
    rw [decimalBefore]
    split
    · exact List.cons_ne_nil _ _
    · exact ih (List.cons_ne_nil _ _)

theorem decimal_ne_nil (n : Nat) : decimal n ≠ [] := by
  rw [decimal, decimalBefore]
  split
  · exact List.cons_ne_nil _ _
  · exact decimalBefore_ne_nil (List.cons_ne_nil _ _)

theorem isDigit_of_mem_decimal {n : Nat} {c : Char} (h : c ∈ decimal n) : IsDigit c :=
  isDigit_of_mem_decimalBefore (by simp) c h

theorem parseNumber_decimal (n : Nat) : parseNumber (decimal n) = some n := by
  have h : numberAfter 0 (decimal n) = some n := by
    rw [decimal, numberAfter_decimalBefore _ (Nat.lt_succ_self n), numberAfter]
  rcases hd : decimal n with _ | ⟨c, cs⟩
  · exact absurd hd (decimal_ne_nil n)
  · rw [hd] at h
    exact h

theorem parseOperand_text (x : SourceOperand) : parseOperand x.text = some x := by
  cases x with
  | reg n => simp [SourceOperand.text, parseOperand, parseNumber_decimal]
  | imm n =>
    have hn := parseNumber_decimal n
    rcases hd : decimal n with _ | ⟨c, cs⟩
    · exact absurd hd (decimal_ne_nil n)
    · have hc : c ≠ 'r' := (isDigit_of_mem_decimal (hd ▸ List.mem_cons_self)).ne.2.2
      rw [hd] at hn
      simp [SourceOperand.text, hd, parseOperand, hc, hn]

theorem SourceOperand.ne_of_mem_text {x : SourceOperand} {c : Char} (h : c ∈ x.text) :
    c ≠ ' ' ∧ c ≠ ',' := by
  cases x with
  | reg n =>
    rcases List.mem_cons.1 h with rfl | h
    · decide
    · exact ⟨(isDigit_of_mem_decimal h).ne.1, (isDigit_of_mem_decimal h).ne.2.1⟩
  | imm n => exact ⟨(isDigit_of_mem_decimal h).ne.1, (isDigit_of_mem_decimal h).ne.2.1⟩

theorem SourceOperand.text_eq_cons (x : SourceOperand) : ∃ c cs, x.text = c :: cs ∧ c ≠ ' ' := by
  rcases h : x.text with _ | ⟨c, cs⟩
  · cases x with
    | reg n => cases h
    | imm n => exact absurd h (decimal_ne_nil n)
  · exact ⟨c, cs, rfl, (SourceOperand.ne_of_mem_text (h ▸ List.mem_cons_self)).1⟩

theorem splitCommas_piece {piece : List Char} (h : ∀ c ∈ piece, c ≠ ',') :
    splitCommas piece = [piece] := by
  induction piece with
  | nil => rfl
  | cons c cs ih =>
    rw [splitCommas, if_neg (h c List.mem_cons_self), ih fun d hd => h d (List.mem_cons_of_mem _ hd)]

theorem splitCommas_append {piece : List Char} (rest : List Char) (h : ∀ c ∈ piece, c ≠ ',') :
    splitCommas (piece ++ ',' :: rest) = piece :: splitCommas rest := by
  induction piece with
  | nil => simp [splitCommas]
  | cons c cs ih =>
    rw [List.cons_append, splitCommas, if_neg (h c List.mem_cons_self),
      ih fun d hd => h d (List.mem_cons_of_mem _ hd)]

/-- The operands of a line, written and read back; a leading space is dropped or not. -/
theorem parseOperands_operandsText (x : SourceOperand) (xs : List SourceOperand) :
    parseOperands (splitCommas (operandsText (x :: xs))) = some (x :: xs) := by
  have drop : ∀ y : SourceOperand, (' ' :: y.text).dropWhile (· == ' ') = y.text := by
    intro y
    obtain ⟨c, cs, hy, hc⟩ := y.text_eq_cons
    simp [hy, hc]
  have comma : ∀ y : SourceOperand, ∀ c ∈ ' ' :: y.text, c ≠ ',' := by
    intro y c hc
    rcases List.mem_cons.1 hc with rfl | hc
    · decide
    · exact (SourceOperand.ne_of_mem_text hc).2
  induction xs generalizing x with
  | nil =>
    rw [operandsText, splitCommas_piece (comma x)]
    simp only [parseOperands, drop, parseOperand_text]
  | cons y ys ih =>
    rw [operandsText, splitCommas_append _ (comma x)]
    simp only [parseOperands, drop, parseOperand_text, ih]

/-- Dropping the space before the first operand changes no operand read. -/
theorem parseOperands_tail (x : SourceOperand) (xs : List SourceOperand) :
    ∃ c cs, operandsText (x :: xs) = ' ' :: c :: cs ∧ c ≠ ' ' ∧
      parseOperands (splitCommas (c :: cs)) = some (x :: xs) := by
  obtain ⟨c, cs, hx, hc⟩ := x.text_eq_cons
  have hne : ∀ d ∈ c :: cs, d ≠ ',' := fun d hd => (SourceOperand.ne_of_mem_text (hx ▸ hd)).2
  have hp : parseOperand ((c :: cs).dropWhile (· == ' ')) = some x := by
    have := parseOperand_text x
    simpa [hx, hc] using this
  cases xs with
  | nil =>
    refine ⟨c, cs, by rw [operandsText, hx], hc, ?_⟩
    rw [splitCommas_piece hne]
    simp only [parseOperands, hp]
  | cons y ys =>
    refine ⟨c, cs ++ ',' :: operandsText (y :: ys), by rw [operandsText, hx]; rfl, hc, ?_⟩
    rw [← List.cons_append, splitCommas_append _ hne, parseOperands, hp,
      parseOperands_operandsText]

theorem Operation.mnemonic_ne_space (o : Operation) : ∀ c ∈ o.mnemonic, (c != ' ') = true := by
  have h : o.mnemonic.all (· != ' ') = true := by cases o <;> decide
  exact List.all_eq_true.1 h

theorem Operation.find_mnemonic (o : Operation) :
    (Operation.all.find? fun p => p.mnemonic == o.mnemonic) = some o := by
  cases o <;> decide

/-- A source line written as text parses back to that line, whatever its operands. -/
theorem parseLine_text (l : SourceLine) : parseLine l.text = some l := by
  obtain ⟨o, xs⟩ := l
  have hs := o.mnemonic_ne_space
  cases xs with
  | nil =>
    have h1 : o.mnemonic.takeWhile (· != ' ') = o.mnemonic := List.takeWhile_eq_self_iff.2 hs
    have h2 : o.mnemonic.dropWhile (· != ' ') = [] := List.dropWhile_eq_nil_iff.2 hs
    simp only [parseLine, SourceLine.text, operandsText, List.append_nil, h1, h2, o.find_mnemonic,
      List.dropWhile_nil]
  | cons x xs =>
    obtain ⟨c, cs, ht, hc, hp⟩ := parseOperands_tail x xs
    have h1 : (o.mnemonic ++ ' ' :: c :: cs).takeWhile (· != ' ') = o.mnemonic := by
      rw [List.takeWhile_append_of_pos hs]
      simp
    have h2 : ((o.mnemonic ++ ' ' :: c :: cs).dropWhile (· != ' ')).dropWhile (· == ' ') = c :: cs := by
      rw [List.dropWhile_append_of_pos hs]
      simp [hc]
    simp only [parseLine, SourceLine.text, ht, h1, h2, o.find_mnemonic, hp, Option.map_some]

end Sys2Proof
end

