-- ==== Sys2Proof/Tests/Slice0.lean ====
section
/-! SUPPORT. The author's own tests: the smoke tests of the source-line checks, the decoding of words
written out from the encodings of spec/30_encoding.md R71 and R85, one step on the vectors of
spec/95_test_vectors.md, and for each obligation with hypotheses a state that meets them, clause by
clause. -/

namespace Sys2Proof.Tests

open Sys2Proof.Machine

/-! ### Source lines that the checks refuse (R85) -/

theorem test_shape_refuses_a_missing_operand :
    (SourceLine.mk .add [.reg 1, .reg 2]).shapeOk = false := by decide

theorem test_shape_refuses_an_immediate_for_a_register :
    (SourceLine.mk .output [.imm 1]).shapeOk = false := by decide

theorem test_registers_refuse_r8 :
    (SourceLine.mk .unmapSegment [.reg 8]).registersOk = false := by decide

theorem test_immediates_refuse_33554432 :
    (SourceLine.mk .loadValue [.reg 1, .imm 33554432]).immediatesOk = false := by decide

theorem test_assembler_refuses_each_ill_formed_line :
    assemble ⟨.add, [.reg 1, .reg 2]⟩ = none ∧ assemble ⟨.unmapSegment, [.reg 8]⟩ = none ∧
      assemble ⟨.loadValue, [.reg 1, .imm 33554432]⟩ = none := by decide

/-- The last register and the last immediate are accepted (95_test_vectors.md 2.7: 0xDFFFFFFF). -/
theorem test_assembler_accepts_the_boundary :
    assemble ⟨.loadValue, [.reg 7, .imm 33554431]⟩ = some 0xDFFFFFFF := by decide

/-- The text of programs P2 and P1 of 95_test_vectors.md, and texts that R85 refuses. -/
theorem test_assemble_text :
    assembleText "multiply r4, r2, r3".toList = some 0x40000113 ∧
      assembleText "load-value r1, 60".toList = some 0xD200003C ∧
      assembleText "halt".toList = some 0x70000000 ∧
      assembleText "output r8".toList = none ∧ assembleText "output 1".toList = none := by decide

/-- The model's choice about spaces (log 24). -/
theorem test_spaces_in_text :
    parseLine "halt ".toList = some ⟨.halt, []⟩ ∧ parseLine " halt".toList = none ∧
      parseLine "output   r1".toList = some ⟨.output, [.reg 1]⟩ ∧
      parseLine "output r1 ".toList = none := by decide

/-! ### Decoding: opcode, nineteen unused bits, A, B, C; or opcode, A, immediate (R71) -/

theorem test_decode_conditional_move :
    decode 0b0000_0000000000000000000_001_010_011 = .ok (.conditionalMove 1 2 3) := by decide

theorem test_decode_segment_load :
    decode 0b0001_0000000000000000000_111_000_100 = .ok (.segmentLoad 7 0 4) := by decide

theorem test_decode_segment_store :
    decode 0b0010_0000000000000000000_010_111_101 = .ok (.segmentStore 2 7 5) := by decide

/-- Bits 27 to 9 set: ignored (R79; 95_test_vectors.md 2.1). -/
theorem test_decode_add :
    decode 0b0011_1111111111111111111_001_001_101 = .ok (.add 1 1 5) := by decide

theorem test_decode_multiply :
    decode 0b0100_0000000000000000000_100_010_011 = .ok (.multiply 4 2 3) := by decide

theorem test_decode_divide :
    decode 0b0101_0000000000000000000_011_001_010 = .ok (.divide 3 1 2) := by decide

theorem test_decode_bitwise_nand :
    decode 0b0110_0000000000000000000_111_000_110 = .ok (.bitwiseNand 7 0 6) := by decide

theorem test_decode_halt :
    decode 0b0111_1111111111111111111_111_111_111 = .ok .halt := by decide

/-- Field A set: not read by map-segment (R79, R80). -/
theorem test_decode_map_segment :
    decode 0b1000_0000000000000000000_101_010_011 = .ok (.mapSegment 2 3) := by decide

theorem test_decode_unmap_segment :
    decode 0b1001_0000000000000000000_101_010_001 = .ok (.unmapSegment 1) := by decide

theorem test_decode_output :
    decode 0b1010_0000000000000000000_000_000_100 = .ok (.output 4) := by decide

theorem test_decode_input :
    decode 0b1011_0000000000000000000_110_011_010 = .ok (.input 2) := by decide

theorem test_decode_load_program :
    decode 0b1100_0000000000000000000_000_110_011 = .ok (.loadProgram 6 3) := by decide

theorem test_decode_load_value :
    decode 0b1101_001_1000000000000000000111100 = .ok (.loadValue 1 16777276) := by decide

theorem test_decode_illegal_14_and_15 :
    decode 0xE0000000 = .error (.illegal 14) ∧ decode 0xFFFFFFFF = .error (.illegal 15) := by decide

/-- The bytes of program P1's first word (95_test_vectors.md part 3), and a file cut short. -/
theorem test_decode_bytes :
    decodeBytes [0xD2, 0x00, 0x00, 0x3C, 0xA0] = .ok (.loadValue 1 60, [0xA0]) ∧
      decodeBytes [0xD2, 0x00, 0x00] = .error .truncated := by decide

theorem test_decode_table_word :
    decodeTableWord 32 0xC000000A = some (.loadProgram 1 2) ∧ decodeTableWord 32 0xE0000000 = none :=
  by decide

/-! ### Small states -/

/-- A host that does nothing between steps. -/
def quietHost : Nat → HostEvent := fun _ => .quiet

def next? : Result → Option State
  | .next t => some t
  | _ => none

def fault? : Result → Option Fault
  | .fault f => some f
  | _ => none

theorem next_of_isSome {r : Result} (h : (next? r).isSome = true) : ∃ t, r = .next t := by
  rcases r with t | f | f
  · exact ⟨t, rfl⟩
  · exact absurd h (by simp [next?])
  · exact absurd h (by simp [next?])

theorem fault_of_eq {r : Result} {f : Fault} (h : fault? r = some f) : r = .fault f := by
  rcases r with t | g | g
  · exact absurd h (by simp [fault?])
  · exact congrArg _ (Option.some.inj h)
  · exact absurd h (by simp [fault?])

/-- The memory of 95_test_vectors.md W4 with a program of one word: segment 0 holds `w`, segment 1 has
four words, the last 7, slot 2 is tombstoned. -/
def mem4 (w : Word) : Memory :=
  { slots := [.live (Segment.ofWords [w]), .live { len := 4, cells := [(3, 7)] }, .tombstone]
    pool := [2] }

/-- That memory, about to run the word `w` with x[1], x[2], x[3] as given and every other register 0. -/
def at3 (w x1 x2 x3 : Word) : State :=
  { State.reset with regs := #v[0, x1, x2, x3, 0, 0, 0, 0], bound := 1, mem := mem4 w }

def after (w x1 x2 x3 : Word) : Option State := next? (step (at3 w x1 x2 x3))

def faultOf (w x1 x2 x3 : Word) : Option Fault := fault? (step (at3 w x1 x2 x3))

theorem at3_inv {w : Word} (x1 x2 x3 : Word) : Inv (at3 w x1 x2 x3) :=
  Inv.of_checks
    (show (mem4 w).wf = true by
      have hw : (Segment.ofWords [w]).wf = true :=
        Segment.ofWords_wf (by simp [Config.maxSegmentWords])
      have h4 : ({ len := 4, cells := [(3, 7)] } : Segment).wf = true := by decide
      simp only [mem4, Memory.wf, Slot.wf, List.all_cons, List.all_nil, hw, h4, Bool.and_true])
    (show ((mem4 w).segment? 0).map Segment.len = some 1 from rfl)
    (show ([2] : List Word).Nodup by decide)
    (show ∀ id ∈ (mem4 w).pool, (mem4 w).slots[id.toNat]? = some .tombstone by simp [mem4])
    (show ∀ k, k < (mem4 w).tableLen → (mem4 w).slots[k]? = some .tombstone →
      BitVec.ofNat 32 k ∈ (mem4 w).pool by
      intro k _ hk
      rcases k with _ | _ | _ | k <;> simp [mem4] at hk ⊢)
    (show (mem4 w).tableLen ≤ Config.maxSlots from (by decide : 3 ≤ Config.maxSlots))
    (by simp [at3, State.reset]) (by simp [at3, State.reset])

/-! ### One step on the vectors of 95_test_vectors.md -/

theorem test_conditional_move_zero :
    (after 0x00000053 9 0x11 0).map (·.reg 1) = some 9 := by decide

theorem test_conditional_move_high_bit :
    (after 0x00000053 9 0x11 0x80000000).map (·.reg 1) = some 0x11 := by decide

theorem test_add_wraps : (after 0x30000053 0 0xFFFFFFFF 2).map (·.reg 1) = some 1 := by decide

theorem test_add_same_register : (after 0x30000049 6 0 0).map (·.reg 1) = some 12 := by decide

theorem test_multiply_low_word :
    (after 0x40000053 0 0x12345678 0x9ABCDEF0).map (·.reg 1) = some 0x242D2080 := by decide

theorem test_divide_unsigned :
    (after 0x50000053 0 0x80000000 7).map (·.reg 1) = some 0x12492492 := by decide

theorem test_divide_by_zero :
    faultOf 0x50000053 0 0 0 = some (.divideByZero 0 (some 0x50000053)) := by decide

theorem test_nand :
    (after 0x60000053 0 0xF0F0F0F0 0xFF00FF00).map (·.reg 1) = some 0x0FFF0FFF := by decide

theorem test_segment_load : (after 0x10000053 0 1 3).map (·.reg 1) = some 7 := by decide

theorem test_segment_load_at_length :
    faultOf 0x10000053 0 1 4 = some (.invalidSegmentAccess 1 4) := by decide

theorem test_segment_store :
    (after 0x20000053 1 2 42).map (fun t => (t.mem.word? 1 2, t.mem.word? 1 3)) =
      some (some 42, some 7) := by decide

theorem test_segment_store_tombstone :
    faultOf 0x20000053 2 0 42 = some (.invalidSegmentAccess 2 0) := by decide

/-- Vector S10: B = C, the pool's identifier is reused. -/
theorem test_map_segment_reuses :
    (after 0x80000009 3 0 0).map (fun t => (t.reg 1, t.mem.pool, t.mem.word? 2 2, t.mem.word? 2 3)) =
      some (2, [], some 0, none) := by decide

theorem test_map_segment_fresh :
    (next? (exec (.mapSegment 2 3) State.reset)).map (fun t => (t.reg 2, t.mem.tableLen)) =
      some (1, 2) := by decide

theorem test_unmap_segment :
    (after 0x90000001 1 0 0).map (fun t => (t.mem.pool, t.mem.valid 1, t.reg 1)) =
      some ([1, 2], false, 1) := by decide

theorem test_unmap_segment_twice :
    faultOf 0x90000001 2 0 0 = some (.invalidSegmentAccess 2 0) := by decide

theorem test_output_255 : (after 0xA0000001 255 0 0).map (·.out) = some [0xFF] := by decide

theorem test_output_256 : faultOf 0xA0000001 256 0 0 = some (.outputOutOfRange 256) := by decide

theorem test_input_byte_255 :
    (next? (exec (.input 1) { State.reset with input := ⟨[255, 65], .unanswered⟩ })).map
      (fun t => (t.reg 1, t.input.pending, t.pc)) = some (255, [65], 1) := by decide

theorem test_input_end_of_stream :
    (after 0xB0000001 0 0 0).map (·.reg 1) = some 0xFFFFFFFF := by decide

/-- The shape of vector W5: segment 1 has four words, so bound becomes 4 and pc is x[2], not one more. -/
theorem test_load_program_replaces :
    (after 0xC000000A 1 3 0).map (fun t => (t.pc, t.bound, t.mem.word? 0 3, t.mem.word? 1 3)) =
      some (3, 4, some 7, some 7) := by decide

/-- Vector L5: the program restarts. -/
theorem test_load_program_jumps :
    (after 0xC0000009 0 5 5).map (fun t => (t.pc, t.bound, t.mem.word? 0 0)) =
      some (0, 1, some 0xC0000009) := by decide

theorem test_load_value_not_sign_extended :
    (after 0xDD000000 0 0 0).map (·.reg 6) = some 0x01000000 := by decide

theorem test_halt_keeps_pc :
    (after 0x70000000 0 0 0).map (fun t => (t.run, t.pc)) = some (.halted, 0) := by decide

theorem test_dispatch_fault :
    faultOf 0xF0000000 0 0 0 = some (.dispatchFault 15 0 0xF0000000) := by decide

/-- The first step after reset with a placed word runs it; with nothing placed the run ends. -/
theorem test_first_step_after_reset :
    (next? (step (State.reset.withFetchWord 32 0xD200003C))).map (·.reg 1) = some 60 ∧
      (next? (step State.reset)).map (·.run) = some .ended := by decide

/-! ### States that meet the hypotheses of the obligations -/

theorem witness_DecodeReadsTheFieldsOfEachOperation :
    (0x00000053 : Word).toNat / 2 ^ 28 = 0 ∧ (0x10000000 : Word).toNat / 2 ^ 28 = 1 ∧
    (0x20000000 : Word).toNat / 2 ^ 28 = 2 ∧ (0x3FFFFFFF : Word).toNat / 2 ^ 28 = 3 ∧
    (0x40000000 : Word).toNat / 2 ^ 28 = 4 ∧ (0x5FFFFFFF : Word).toNat / 2 ^ 28 = 5 ∧
    (0x60000000 : Word).toNat / 2 ^ 28 = 6 ∧ (0x7FFFFFFF : Word).toNat / 2 ^ 28 = 7 ∧
    (0x80000000 : Word).toNat / 2 ^ 28 = 8 ∧ (0x9FFFFFFF : Word).toNat / 2 ^ 28 = 9 ∧
    (0xA0000000 : Word).toNat / 2 ^ 28 = 10 ∧ (0xBFFFFFFF : Word).toNat / 2 ^ 28 = 11 ∧
    (0xC0000000 : Word).toNat / 2 ^ 28 = 12 ∧ (0xDFFFFFFF : Word).toNat / 2 ^ 28 = 13 ∧
    14 ≤ (0xE0000000 : Word).toNat / 2 ^ 28 := by decide

theorem witness_OnlyOpcodes14And15AreIllegal :
    (0xDFFFFFFF : Word).toNat / 2 ^ 28 < 14 ∧ ¬ (0xE0000000 : Word).toNat / 2 ^ 28 < 14 := by decide

theorem witness_BitsNoFieldNamesChangeNothing :
    (0x3FFFFE4D : Word).toNat / 2 ^ 28 = (0x3000004D : Word).toNat / 2 ^ 28 ∧
    (0x3FFFFE4D : Word).toNat / 2 ^ 28 ≠ 13 ∧
    (0x3FFFFE4D : Word).toNat % 2 ^ 9 = (0x3000004D : Word).toNat % 2 ^ 9 := by decide

theorem witness_AssemblerAcceptsExactlyWellFormedLines :
    (SourceLine.mk .loadValue [.reg 7, .imm 33554431]).wf = true ∧
    (SourceLine.mk .loadValue [.reg 8, .imm 33554431]).wf = false := by decide

theorem witness_InstructionTextAssemblesToItsWord :
    (Instr.mapSegment 2 3).toSource.text = "map-segment r2, r3".toList ∧
    (SourceLine.mk .mapSegment [.reg 2, .reg 3]).wf = true ∧
    (SourceLine.mk .mapSegment [.reg 2, .reg 8]).wf = false := by decide

theorem witness_LoadLeavesTheStateOfTheResetTable :
    ([] : List Word).length ≤ 4294967295 ∧ ([0x70000000] : List Word).length ≤ 4294967295 := by
  decide

theorem witness_LoaderReadsTheProgramFileBigEndian :
    ([0x70, 0, 0, 0] : List Byte).length % 4 = 0 ∧
    ([0x70, 0, 0, 0] : List Byte).length / 4 ≤ 4294967295 ∧
    (0 : Word).toNat < ([0x70, 0, 0, 0] : List Byte).length / 4 := by decide

theorem witness_LoaderRejectsPartialWordsAndOverlongPrograms :
    loadBytes initRegs ⟨[], .exhausted⟩ [] initConfig [0x70, 0, 0] = none ∧
    (loadBytes initRegs ⟨[], .exhausted⟩ [] initConfig [0x70, 0, 0, 0]).isSome = true ∧
    ∃ file : List Byte, 4294967295 < file.length / 4 :=
  ⟨by decide, by decide, List.replicate 17179869184 0, by rw [List.length_replicate]; decide⟩

theorem witness_PlacedWordRunsNext :
    Inv (at3 0x30000053 0 0 0) ∧ decode 0x70000000 = .ok .halt := ⟨at3_inv 0 0 0, by decide⟩

theorem witness_StepRunsTheDecodedInstruction :
    (at3 0x30000053 0 0 0).run = .running ∧ (at3 0x30000053 0 0 0).pc < (at3 0x30000053 0 0 0).bound ∧
    (at3 0x30000053 0 0 0).mem.word? 0 (at3 0x30000053 0 0 0).pc = some 0x30000053 ∧
    decode 0x30000053 = .ok (.add 1 2 3) := by decide

theorem witness_StepAtBoundEndsTheRun :
    State.reset.run = .running ∧ State.reset.pc = State.reset.bound := by decide

theorem witness_StepPastBoundFollowsTheParameter :
    let s := { State.reset with pc := 1 }
    let s' := { s with config := { pcPastBound := .endRun } }
    (s.run = .running ∧ s.bound < s.pc ∧ s.config.pcPastBound = .fault) ∧
    (s'.run = .running ∧ s'.bound < s'.pc ∧ s'.config.pcPastBound = .endRun) := by decide

theorem witness_IllegalOpcodeFaultsAtDispatch :
    (at3 0xE0000000 0 0 0).run = .running ∧ (at3 0xE0000000 0 0 0).pc < (at3 0xE0000000 0 0 0).bound ∧
    (at3 0xE0000000 0 0 0).mem.word? 0 (at3 0xE0000000 0 0 0).pc = some 0xE0000000 ∧
    14 ≤ (0xE0000000 : Word).toNat / 2 ^ 28 ∧
    (at3 0xDFFFFFFF 0 0 0).run = .running ∧ (at3 0xDFFFFFFF 0 0 0).pc < (at3 0xDFFFFFFF 0 0 0).bound ∧
    (at3 0xDFFFFFFF 0 0 0).mem.word? 0 (at3 0xDFFFFFFF 0 0 0).pc = some 0xDFFFFFFF ∧
    (0xDFFFFFFF : Word).toNat / 2 ^ 28 < 14 := by decide

theorem witness_NoStepOnceTheRunIsOver :
    { State.reset with run := RunState.halted }.run ≠ .running ∧
    { State.reset with run := RunState.ended }.run ≠ .running := by decide

theorem witness_DivideIsUnsignedFloorOrFaults :
    (at3 0x50000053 0 7 1).reg 3 ≠ 0 ∧ (at3 0x50000053 0 7 0).reg 3 = 0 := by decide

/-- The last offset of segment 1, its length, the table length and the tombstoned slot. -/
theorem witness_SegmentLoadReadsTheWordOrFaults :
    (∃ g, (mem4 0).slots[((at3 0 0 1 3).reg 2).toNat]? = some (.live g) ∧
      (at3 0 0 1 3).reg 3 < g.len) ∧
    (∃ g, (mem4 0).slots[((at3 0 0 1 4).reg 2).toNat]? = some (.live g) ∧
      g.len ≤ (at3 0 0 1 4).reg 3) ∧
    (mem4 0).tableLen ≤ ((at3 0 0 3 0).reg 2).toNat ∧
    (mem4 0).slots[((at3 0 0 2 0).reg 2).toNat]? = some .tombstone :=
  ⟨⟨_, rfl, by decide⟩, ⟨_, rfl, by decide⟩, by decide, by decide⟩

theorem witness_SegmentStoreWritesOneWordOrFaults :
    Inv (at3 0x30000053 1 3 0) ∧
    (∃ g, (mem4 0x30000053).slots[(storeAddress 1 2 (at3 0x30000053 1 3 0)).id.toNat]? =
        some (.live g) ∧ (storeAddress 1 2 (at3 0x30000053 1 3 0)).off < g.len) ∧
    (∃ g, (mem4 0).slots[((at3 0 1 4 0).reg 1).toNat]? = some (.live g) ∧
      g.len ≤ (at3 0 1 4 0).reg 2) ∧
    (mem4 0).tableLen ≤ ((at3 0 3 0 0).reg 1).toNat ∧
    (mem4 0).slots[((at3 0 2 0 0).reg 1).toNat]? = some .tombstone :=
  ⟨at3_inv 1 3 0, ⟨_, rfl, by decide⟩, ⟨_, rfl, by decide⟩, by decide, by decide⟩

theorem witness_MapSegmentReusesTheLastFreedIdentifier :
    Inv (at3 0x30000053 0 0 4) ∧ (at3 0x30000053 0 0 4).canHold = true ∧
    (at3 0x30000053 0 0 4).mem.pool = 2 :: [] := ⟨at3_inv 0 0 4, by decide, by decide⟩

theorem witness_MapSegmentAppendsWhenThePoolIsEmpty :
    State.reset.canHold = true ∧ State.reset.mem.pool = [] ∧ State.reset.mem.tableLen < 2 ^ 32 := by
  decide

/-- About to run `map-segment r2, r3` with a table of `n + 1` slots, all live, and an empty pool. -/
def fullTable (n : Nat) : State :=
  { State.reset with
    bound := 1
    mem := ⟨.live (Segment.ofWords [0x80000013]) :: List.replicate n (.live (Segment.zeros 0)), []⟩ }

theorem fullTable_tableLen (n : Nat) : (fullTable n).mem.tableLen = n + 1 := by
  simp [fullTable, Memory.tableLen]

theorem fullTable_inv {n : Nat} (h : n + 1 ≤ Config.maxSlots) : Inv (fullTable n) := by
  have hz : Slot.wf (.live (Segment.zeros 0)) = true := by decide
  have hp : Slot.wf (.live (Segment.ofWords [0x80000013])) = true := by decide
  have live : ∀ k : Nat, (fullTable n).mem.slots[k]? ≠ some Slot.tombstone := by
    intro k hk
    have hm : Slot.tombstone ∈ (fullTable n).mem.slots := List.mem_of_getElem? hk
    rcases List.mem_cons.1 hm with hm | hm
    · cases hm
    · cases (List.mem_replicate.1 hm).2
  refine Inv.of_checks ?_ rfl List.nodup_nil ?_ (fun k _ hk => absurd hk (live k))
    ((fullTable_tableLen n).trans_le h) ?_ ?_
  · refine List.all_eq_true.2 fun x hx => ?_
    rcases List.mem_cons.1 hx with rfl | hx
    · exact hp
    · rw [(List.mem_replicate.1 hx).2, hz]
  · intro id hid
    cases hid
  · simp [fullTable, State.reset]
  · simp [fullTable, State.reset]

/-- With every identifier taken, map-segment faults. -/
theorem exists_exhausted_table {n : Nat} (h : n + 1 = Config.maxSlots) :
    ∃ s, Inv s ∧ s.mem.pool = [] ∧ s.mem.tableLen = n + 1 ∧
      step s = .fault (.resourceExhausted (s.reg 3)) := by
  refine ⟨fullTable n, fullTable_inv h.le, rfl, fullTable_tableLen n, step_eq_fault.2 ⟨rfl, .inr (.inr
    ⟨0x80000013, (show (0 : Word) < 1 by decide), rfl, .inr ⟨.mapSegment 2 3, by decide, ?_⟩⟩)⟩⟩
  exact exec_mapSegment_fault.2 ⟨.inr ⟨rfl, ((fullTable_tableLen n).trans h).ge⟩, rfl⟩

/-- A refused capacity question, and a table of 2^32 slots. -/
theorem witness_MapSegmentFaultsWhenExhausted :
    { State.reset with capacity := [false] }.canHold = false ∧
    ∃ s : State, s.mem.pool = [] ∧ s.mem.tableLen = 4294967295 + 1 := by
  obtain ⟨s, -, hp, hl, -⟩ := exists_exhausted_table (n := 4294967295) (by decide)
  exact ⟨by decide, s, hp, hl⟩

theorem witness_UnmapSegmentTombstonesAndPushes :
    (at3 0 1 0 0).reg 1 ≠ 0 ∧
    ∃ g, (at3 0 1 0 0).mem.slots[((at3 0 1 0 0).reg 1).toNat]? = some (.live g) :=
  ⟨by decide, _, rfl⟩

theorem witness_UnmapSegmentFaultsOnTheProgramAndInvalidIds :
    (at3 0 0 0 0).reg 1 = 0 ∧
    ((at3 0 3 0 0).reg 1 ≠ 0 ∧ (at3 0 3 0 0).mem.tableLen ≤ ((at3 0 3 0 0).reg 1).toNat) ∧
    ((at3 0 2 0 0).reg 1 ≠ 0 ∧
      (at3 0 2 0 0).mem.slots[((at3 0 2 0 0).reg 1).toNat]? = some .tombstone) := by decide

/-- Two live segments freed one after the other, the pool empty before. -/
theorem witness_FreedIdentifiersAreReusedLastFirst :
    let m : Memory := ⟨[.live (Segment.zeros 1), .live (Segment.zeros 1), .live (Segment.zeros 1)], []⟩
    (∃ m1 m2, m.free 1 = .ok m1 ∧ m1.free 2 = .ok m2) ∧ (1 : Word) ≠ 2 ∧ m.pool = [] ∧
      m.tableLen < 2 ^ 32 :=
  ⟨⟨_, _, rfl, rfl⟩, by decide, by decide, by decide⟩

theorem witness_LoadProgramOfSegmentZeroOnlyJumps : (at3 0 0 9 0).reg 1 = 0 := by decide

theorem witness_LoadProgramReplacesTheProgram :
    (at3 0 1 0 0).reg 1 ≠ 0 ∧
    (∃ g, (at3 0 1 0 0).mem.slots[((at3 0 1 0 0).reg 1).toNat]? = some (.live g)) ∧
    (at3 0 1 0 0).canHold = true := ⟨by decide, ⟨_, rfl⟩, by decide⟩

theorem witness_LoadProgramFaultsOnInvalidOrExhausted :
    ((at3 0 3 0 0).reg 1 ≠ 0 ∧ (at3 0 3 0 0).mem.tableLen ≤ ((at3 0 3 0 0).reg 1).toNat) ∧
    ((at3 0 2 0 0).reg 1 ≠ 0 ∧
      (at3 0 2 0 0).mem.slots[((at3 0 2 0 0).reg 1).toNat]? = some .tombstone) ∧
    ((at3 0 1 0 0).reg 1 ≠ 0 ∧
      (∃ g, (at3 0 1 0 0).mem.slots[((at3 0 1 0 0).reg 1).toNat]? = some (.live g)) ∧
      { at3 0 1 0 0 with capacity := [false] }.canHold = false) :=
  ⟨by decide, by decide, by decide, ⟨_, rfl⟩, by decide⟩

theorem witness_ReplacedProgramIsAnIndependentCopy :
    (at3 0 1 0 0).reg 1 ≠ 0 ∧ ∃ t, exec (.loadProgram 1 2) (at3 0 1 0 0) = .next t ∧
      (∃ m, t.mem.write ((at3 0 1 0 0).reg 1) 0 5 = .ok m) ∧ ∃ m, t.mem.write 0 0 5 = .ok m :=
  ⟨by decide, _, rfl, ⟨_, rfl⟩, ⟨_, rfl⟩⟩

theorem witness_OutputAppendsOneByteOrFaults :
    ((at3 0 255 0 0).reg 1).toNat < 256 ∧ 256 ≤ ((at3 0 256 0 0).reg 1).toNat := by decide

theorem witness_InputTakesTheNextByteOrFaults :
    { State.reset with input := ⟨[255], .unanswered⟩ }.input.pending = 255 :: [] ∧
    (255 : Word).toNat < 256 ∧
    { State.reset with input := ⟨[256], .unanswered⟩ }.input.pending = 256 :: [] ∧
    256 ≤ (256 : Word).toNat ∧
    { State.reset with input := ⟨[], .endless 0 5⟩ }.input.pending = [] ∧
    { State.reset with input := ⟨[], .endless 0 5⟩ }.input.tail = .endless 0 5 := by decide

/-- An infinite stream loaded whole: the first input takes its first byte and the stream goes on. -/
theorem test_input_reads_on_in_an_endless_stream :
    ∃ s, load initRegs ⟨[], .endless 2 0⟩ [] initConfig [0xB0000001] = some s ∧
      ∃ t, exec (.input 1) s = .next t ∧ t.input.tail = .endless 2 1 :=
  ⟨_, rfl, _, exec_input_next.2 (.inr (.inr (.inr ⟨2, 0, rfl, rfl, rfl⟩))), rfl⟩

/-- The host answers before the second step; until then input waits. -/
theorem test_host_answers_between_steps :
    (observe (fun n => if n = 1 then .answer 65 else .quiet) 2
      { at3 0xB0000001 0 0 0 with input := ⟨[], .unanswered⟩ }).final.map
        (fun t => (t.reg 1, t.pc, t.run)) = some (65, 1, .running) := by decide

theorem witness_InputAtEndOfStreamReadsAllOnes :
    State.reset.input.pending = [] ∧ State.reset.input.tail = .exhausted := by decide

theorem witness_InputWaitsForTheSource :
    { State.reset with input := ⟨[], .unanswered⟩ }.input.pending = [] ∧
    { State.reset with input := ⟨[], .unanswered⟩ }.input.tail = .unanswered ∧ (255 : Word).toNat < 256 := by
  decide

theorem witness_SourceOfBytesNeverRaisesInputOutOfRange :
    { at3 0xB0000001 0 0 0 with input := ⟨[255], .unanswered⟩ }.inputContract ∧
    (∃ t, step { at3 0xB0000001 0 0 0 with input := ⟨[255], .unanswered⟩ } = .next t) ∧
    (255 : Word).toNat < 256 :=
  ⟨show ∀ v ∈ ([255] : List Word), v.toNat < 256 by simp, next_of_isSome (by decide), by decide⟩

theorem witness_LoadedStateMeetsTheInvariant :
    ∃ s, load initRegs ⟨[65], .exhausted⟩ [false] initConfig [0x70000000, 0] = some s := ⟨_, rfl⟩

theorem witness_StepKeepsTheInvariant :
    Inv (at3 0x30000053 0 1 2) ∧ ∃ t, step (at3 0x30000053 0 1 2) = .next t :=
  ⟨at3_inv 0 1 2, next_of_isSome (by decide)⟩

theorem witness_FetchNeverFaults :
    Inv (at3 0x30000053 0 0 0) ∧ (at3 0x30000053 0 0 0).pc < (at3 0x30000053 0 0 0).bound :=
  ⟨at3_inv 0 0 0, by decide⟩

/-- One state with the invariant for each listed condition, in the order of the list. -/
theorem witness_StepFaultsExactlyAsListed :
    (∃ s, Inv s ∧ step s = .fault (.pcOutOfRange 2 1)) ∧
    (∃ s, Inv s ∧ step s = .fault (.dispatchFault 14 0 0xE0000000)) ∧
    (∃ s, Inv s ∧ step s = .fault (.divideByZero 0 (some 0x50000053))) ∧
    (∃ s, Inv s ∧ step s = .fault (.invalidSegmentAccess 1 4)) ∧
    (∃ s, Inv s ∧ step s = .fault (.invalidSegmentAccess 2 0)) ∧
    (∃ s, Inv s ∧ step s = .fault (.unmapProgramSegment 0)) ∧
    (∃ s, Inv s ∧ step s = .fault (.invalidSegmentAccess 3 0)) ∧
    (∃ s, Inv s ∧ step s = .fault (.outputOutOfRange 256)) ∧
    (∃ s, Inv s ∧ step s = .fault (.inputOutOfRange 256)) ∧
    (∃ s, Inv s ∧ s.canHold = false ∧ step s = .fault (.resourceExhausted 4)) ∧
    (∃ s, Inv s ∧ s.mem.pool = [] ∧ s.mem.tableLen = 4294967295 + 1 ∧
      step s = .fault (.resourceExhausted (s.reg 3))) ∧
    (∃ s, Inv s ∧ s.reg 1 = 3 ∧ step s = .fault (.invalidSegmentAccess 3 0)) ∧
    (∃ s, Inv s ∧ s.reg 1 = 1 ∧ s.canHold = false ∧ step s = .fault (.resourceExhausted 4)) :=
  ⟨⟨{ at3 0x30000053 0 0 0 with pc := 2 }, (at3_inv 0 0 0).congr rfl rfl rfl rfl,
      fault_of_eq (by decide)⟩,
    ⟨at3 0xE0000000 0 0 0, at3_inv 0 0 0, fault_of_eq (by decide)⟩,
    ⟨at3 0x50000053 0 7 0, at3_inv 0 7 0, fault_of_eq (by decide)⟩,
    ⟨at3 0x10000053 0 1 4, at3_inv 0 1 4, fault_of_eq (by decide)⟩,
    ⟨at3 0x20000053 2 0 9, at3_inv 2 0 9, fault_of_eq (by decide)⟩,
    ⟨at3 0x90000001 0 0 0, at3_inv 0 0 0, fault_of_eq (by decide)⟩,
    ⟨at3 0x90000001 3 0 0, at3_inv 3 0 0, fault_of_eq (by decide)⟩,
    ⟨at3 0xA0000001 256 0 0, at3_inv 256 0 0, fault_of_eq (by decide)⟩,
    ⟨{ at3 0xB0000001 0 0 0 with input := ⟨[256], .unanswered⟩ }, (at3_inv 0 0 0).congr rfl rfl rfl rfl,
      fault_of_eq (by decide)⟩,
    ⟨{ at3 0x80000013 0 0 4 with capacity := [false] }, (at3_inv 0 0 4).congr rfl rfl rfl rfl,
      by decide, fault_of_eq (by decide)⟩,
    exists_exhausted_table (by decide),
    ⟨at3 0xC000000A 3 0 0, at3_inv 3 0 0, by decide, fault_of_eq (by decide)⟩,
    ⟨{ at3 0xC000000A 1 0 0 with capacity := [false] }, (at3_inv 1 0 0).congr rfl rfl rfl rfl,
      by decide, by decide, fault_of_eq (by decide)⟩⟩

/-- One state for each way pc may move: by one, by load-program, at halt, while input waits. -/
theorem witness_PcAdvancesByOneExceptAsStated :
    (∃ t, step (at3 0x30000053 0 0 0) = .next t) ∧ (∃ t, step (at3 0xC000000A 0 5 0) = .next t) ∧
    (∃ t, step (at3 0x70000000 0 0 0) = .next t) ∧
    ∃ t, step { at3 0xB0000001 0 0 0 with input := ⟨[], .unanswered⟩ } = .next t :=
  ⟨next_of_isSome (by decide), next_of_isSome (by decide), next_of_isSome (by decide),
    next_of_isSome (by decide)⟩

theorem witness_BoundChangesOnlyByProgramReplacement :
    ∃ t, step (at3 0xC000000A 1 0 0) = .next t ∧ t.bound ≠ (at3 0xC000000A 1 0 0).bound :=
  ⟨_, rfl, by decide⟩

theorem witness_OnlyTheWrittenRegisterChanges :
    ∃ t, exec (.add 1 2 3) (at3 0 0 1 2) = .next t ∧ t.reg 1 ≠ (at3 0 0 1 2).reg 1 :=
  ⟨_, rfl, by decide⟩

theorem witness_UnreadRegistersDoNotMatter :
    1 ∉ regsRead (.add 1 2 3) ∧ AgreeBut 1 (at3 0 8 1 2) (at3 0 9 1 2) ∧
    (at3 0 8 1 2).reg 1 ≠ (at3 0 9 1 2).reg 1 := ⟨by decide, ⟨by decide, rfl⟩, by decide⟩

theorem witness_SegmentTableNeverShrinks :
    ∃ t, step { at3 0x80000013 0 0 4 with
      mem := ⟨[.live (Segment.ofWords [0x80000013])], []⟩ } = .next t :=
  next_of_isSome (by decide)

theorem witness_LiveSegmentsKeepTheirLengthAndWords :
    Inv (at3 0x30000053 0 1 2) ∧ ∃ t, step (at3 0x30000053 0 1 2) = .next t ∧ (1 : Word) ≠ 0 ∧
      (∃ g, (at3 0x30000053 0 1 2).mem.segment? 1 = some g) ∧ ∃ g, t.mem.segment? 1 = some g :=
  ⟨at3_inv 0 1 2, _, rfl, by decide, ⟨_, rfl⟩, ⟨_, rfl⟩⟩

theorem witness_MapSegmentReturnsAnUnusedIdentifier :
    Inv (at3 0x30000053 0 0 4) ∧ ∃ t, exec (.mapSegment 2 3) (at3 0x30000053 0 0 4) = .next t :=
  ⟨at3_inv 0 0 4, _, rfl⟩

theorem witness_StoreToTheProgramIsFetched :
    Inv (at3 0x30000053 0 0 0x70000000) ∧ (at3 0x30000053 0 0 0x70000000).reg 1 = 0 ∧
    ∃ t u : State, exec (.segmentStore 1 2 3) (at3 0x30000053 0 0 0x70000000) = .next t ∧
      u.mem = t.mem ∧ u.pc = (at3 0x30000053 0 0 0x70000000).reg 2 :=
  ⟨at3_inv 0 0 _, by decide, _, { State.reset with mem := _, pc := 0 }, rfl, rfl, by decide⟩

theorem witness_OutputGrowsOnlyByTheOutputInstruction :
    ∃ t, step (at3 0xA0000001 255 0 0) = .next t ∧ t.out ≠ (at3 0xA0000001 255 0 0).out :=
  ⟨_, rfl, by decide⟩

theorem witness_OutputIsKeptAlongARun :
    ∃ t, (observe quietHost 1 (at3 0xA0000001 255 0 0)).final = some t := ⟨_, rfl⟩

theorem witness_FaultEndsTheRunAndHidesTheState :
    step (at3 0xA0000001 256 0 0) = .fault (.outputOutOfRange 256) ∧
    step ((at3 0xA0000001 256 0 0).afterEvent (quietHost 0)) = .fault (.outputOutOfRange 256) :=
  ⟨fault_of_eq (by decide), fault_of_eq (by decide)⟩

theorem witness_OutcomeOfARunIsFinal :
    (observe quietHost 1 (at3 0x70000000 0 0 0)).status ≠ .running ∧
    SafeFor quietHost (1 + 1) (at3 0x70000000 0 0 0) ∧
    (observe quietHost 1 (at3 0x70000000 0 0 0)).status.success = true ∧
    (observe quietHost 2 (at3 0xA0000001 255 0 0)).status.success = true ∧
    (observe quietHost 2 (at3 0xA0000001 255 0 0)).out = [0xFF] := by
  have h : (observe quietHost (1 + 1) (at3 0x70000000 0 0 0)).status = .halted := by decide
  exact ⟨by decide, fun f => by rw [h]; simp, by decide, by decide, by decide⟩

theorem witness_RunEndsOnlyByHaltOrTheBound :
    (∃ t, step (at3 0x70000000 0 0 0) = .next t ∧ t.run ≠ .running) ∧
    (∃ t, step State.reset = .next t ∧ t.run ≠ .running) ∧
    ∃ t, step { State.reset with pc := 1, config := { pcPastBound := .endRun } } = .next t ∧
      t.run ≠ .running :=
  ⟨⟨_, rfl, by decide⟩, ⟨_, rfl, by decide⟩, ⟨_, rfl, by decide⟩⟩

end Sys2Proof.Tests
end

section
/-! PROOFS. The state family (spec/10_state.md): what an executed instruction can do to the registers, the
memory, bound and the run, said once per instruction; the part of the invariant that speaks of the memory,
kept by each transaction; and noninterference of the registers an instruction does not read. -/

namespace Sys2Proof.Machine

/-! ### What an executed instruction can change -/

/-- The registers after `exec i`: as before, or with the one register of `regWritten` set (R22). -/
inductive RegsEffect (i : Instr) (s t : State) : Prop where
  | kept (regs : t.regs = s.regs)
  | written (r : Reg) (v : Word) (dest : regWritten i = some r) (regs : t.regs = (s.setReg r v).regs)

/-- The memory and bound after `exec i`: as before, or after one transaction of the Address Space. -/
inductive MemEffect (i : Instr) (s t : State) : Prop where
  | kept (mem : t.mem = s.mem) (bound : t.bound = s.bound)
  | stored (a b c : Reg) (instr : i = .segmentStore a b c)
      (mem : s.mem.write (s.reg a) (s.reg b) (s.reg c) = .ok t.mem) (bound : t.bound = s.bound)
  | mapped (b c : Reg) (id : Word) (instr : i = .mapSegment b c)
      (mem : s.mem.alloc s.canHold (s.reg c) = .ok (id, t.mem)) (bound : t.bound = s.bound)
  | unmapped (c : Reg) (instr : i = .unmapSegment c)
      (mem : s.mem.free (s.reg c) = .ok t.mem) (bound : t.bound = s.bound)
  | replaced (b c : Reg) (g : Segment) (instr : i = .loadProgram b c) (source : s.reg b ≠ 0)
      (seg : s.mem.segment? (s.reg b) = some g) (mem : t.mem = s.mem.putSlot 0 (.live g))
      (bound : t.bound = g.len)

/-- The run state and the release of the storage after `exec i`: only halt touches them (R53, R150). -/
inductive RunEffect (i : Instr) (s t : State) : Prop where
  | kept (run : t.run = s.run) (released : t.released = s.released)
  | halted (instr : i = .halt) (run : t.run = .halted) (released : t.released = true)

/-- Everything an instruction that completes can do to the registers, the memory, bound and the run. -/
theorem exec_next_effects {i : Instr} {s t : State} (h : exec i s = .next t) :
    RegsEffect i s t ∧ MemEffect i s t ∧ RunEffect i s t := by
  cases i with
  | conditionalMove a b c =>
    obtain ⟨-, rfl⟩ | ⟨-, rfl⟩ := exec_conditionalMove_next.1 h
    · exact ⟨.written a _ rfl rfl, .kept rfl rfl, .kept rfl rfl⟩
    · exact ⟨.kept rfl, .kept rfl rfl, .kept rfl rfl⟩
  | segmentLoad a b c =>
    obtain ⟨w, -, rfl⟩ := exec_segmentLoad_next.1 h
    exact ⟨.written a w rfl rfl, .kept rfl rfl, .kept rfl rfl⟩
  | segmentStore a b c =>
    obtain ⟨m, hm, rfl⟩ := exec_segmentStore_next.1 h
    exact ⟨.kept rfl, .stored a b c rfl hm rfl, .kept rfl rfl⟩
  | add a b c =>
    obtain rfl := exec_add_next.1 h
    exact ⟨.written a _ rfl rfl, .kept rfl rfl, .kept rfl rfl⟩
  | multiply a b c =>
    obtain rfl := exec_multiply_next.1 h
    exact ⟨.written a _ rfl rfl, .kept rfl rfl, .kept rfl rfl⟩
  | divide a b c =>
    obtain ⟨-, rfl⟩ := exec_divide_next.1 h
    exact ⟨.written a _ rfl rfl, .kept rfl rfl, .kept rfl rfl⟩
  | bitwiseNand a b c =>
    obtain rfl := exec_bitwiseNand_next.1 h
    exact ⟨.written a _ rfl rfl, .kept rfl rfl, .kept rfl rfl⟩
  | halt =>
    obtain rfl := exec_halt_next.1 h
    exact ⟨.kept rfl, .kept rfl rfl, .halted rfl rfl rfl⟩
  | mapSegment b c =>
    obtain ⟨id, m, hm, rfl⟩ := exec_mapSegment_next.1 h
    exact ⟨.written b id rfl rfl, .mapped b c id rfl hm rfl, .kept rfl rfl⟩
  | unmapSegment c =>
    obtain ⟨m, hm, rfl⟩ := exec_unmapSegment_next.1 h
    exact ⟨.kept rfl, .unmapped c rfl hm rfl, .kept rfl rfl⟩
  | output c =>
    obtain ⟨-, rfl⟩ := exec_output_next.1 h
    exact ⟨.kept rfl, .kept rfl rfl, .kept rfl rfl⟩
  | input c =>
    obtain ⟨v, rest, -, -, rfl⟩ | ⟨-, -, rfl⟩ | ⟨-, -, rfl⟩ | ⟨j, p, -, -, rfl⟩ :=
      exec_input_next.1 h
    · exact ⟨.written c v rfl rfl, .kept rfl rfl, .kept rfl rfl⟩
    · exact ⟨.written c _ rfl rfl, .kept rfl rfl, .kept rfl rfl⟩
    · exact ⟨.kept rfl, .kept rfl rfl, .kept rfl rfl⟩
    · exact ⟨.written c _ rfl rfl, .kept rfl rfl, .kept rfl rfl⟩
  | loadProgram b c =>
    obtain ⟨-, rfl⟩ | ⟨hb, -, g, hg, rfl⟩ := exec_loadProgram_next.1 h
    · exact ⟨.kept rfl, .kept rfl rfl, .kept rfl rfl⟩
    · exact ⟨.kept rfl, .replaced b c g rfl hb hg rfl rfl, .kept rfl rfl⟩
  | loadValue a imm =>
    obtain rfl := exec_loadValue_next.1 h
    exact ⟨.written a _ rfl rfl, .kept rfl rfl, .kept rfl rfl⟩

/-! ### The invariant of the memory -/

/-- The clauses of `Inv` that speak of the memory and of bound. -/
structure MemInv (m : Memory) (bound : Word) : Prop where
  memory : m.wf = true
  program : (m.segment? 0).map Segment.len = some bound
  poolNodup : m.pool.Nodup
  poolFreed : ∀ id : Word, id ∈ m.pool ↔ m.slots[id.toNat]? = some .tombstone
  tableFits : m.tableLen ≤ Config.maxSlots

theorem inv_iff_memInv {s : State} : Inv s ↔
    MemInv s.mem s.bound ∧ (s.released = true ↔ s.run = .halted) ∧ ∀ f, s.run ≠ .faulted f :=
  ⟨fun h => ⟨⟨h.memory, h.program, h.poolNodup, h.poolFreed, h.tableFits⟩, h.released,
      h.notFaulted⟩,
    fun ⟨⟨memory, program, poolNodup, poolFreed, tableFits⟩, released, notFaulted⟩ =>
      ⟨memory, program, poolNodup, poolFreed, tableFits, released, notFaulted⟩⟩

section
variable {m m' : Memory} {bound : Word}

theorem MemInv.programSegment (h : MemInv m bound) : ∃ g, m.segment? 0 = some g ∧ g.len = bound := by
  simpa using h.program

theorem Memory.putSlot_slot_word {id : Word} (slot : Slot) (h : id.toNat < m.tableLen) (j : Word) :
    (m.putSlot id slot).slots[j.toNat]? = if j = id then some slot else m.slots[j.toNat]? := by
  simp only [Memory.putSlot_slot slot h, BitVec.toNat_inj]

/-- The tombstoned slots are the same after a live segment is put in the place of a live one. -/
theorem Memory.putSlot_live_tombstone {id : Word} {g : Segment} (hg : m.segment? id = some g)
    (g' : Segment) (k : Nat) :
    (m.putSlot id (.live g')).slots[k]? = some .tombstone ↔ m.slots[k]? = some .tombstone := by
  rw [Memory.putSlot_slot _ (Memory.segment?_lt hg)]
  split
  · next hk => simp [hk, Memory.segment?_eq_some.1 hg]
  · rfl

/-- A well-formed segment in the place of a live one keeps the invariant, for the bound that segment 0
then has (R27, R41, R52). -/
theorem MemInv.putSlot_live (h : MemInv m bound) {id : Word} {g g' : Segment}
    (hg : m.segment? id = some g) (hwf : g'.wf = true) {bound' : Word}
    (hbound : if id = 0 then g'.len = bound' else bound = bound') :
    MemInv (m.putSlot id (.live g')) bound' where
  memory := Memory.putSlot_wf h.memory id hwf
  program := by
    rw [Memory.segment?_putSlot_live _ (Memory.segment?_lt hg)]
    by_cases hid : id = 0
    · simpa [hid] using hbound
    · rw [if_neg hid] at hbound
      rw [if_neg (Ne.symm hid), h.program, hbound]
  poolNodup := h.poolNodup
  poolFreed j := (h.poolFreed j).trans (Memory.putSlot_live_tombstone hg g' _).symm
  tableFits := by simpa using h.tableFits

theorem MemInv.write (h : MemInv m bound) {id off v : Word} (hw : m.write id off v = .ok m') :
    MemInv m' bound := by
  obtain ⟨g, hg, hoff, rfl⟩ := Memory.write_eq_ok.1 hw
  refine h.putSlot_live hg (Segment.set_wf (Memory.segment?_wf h.memory hg) hoff v) ?_
  split
  · next hid =>
    obtain ⟨g₀, hg₀, hlen⟩ := h.programSegment
    rw [hid, hg₀] at hg
    cases hg
    exact hlen
  · rfl

/-- A copy of a live segment as segment 0, with its length as bound (R52, R151). -/
theorem MemInv.replace (h : MemInv m bound) {id : Word} {g : Segment}
    (hg : m.segment? id = some g) : MemInv (m.putSlot 0 (.live g)) g.len := by
  obtain ⟨g₀, hg₀, -⟩ := h.programSegment
  exact h.putSlot_live hg₀ (Memory.segment?_wf h.memory hg) (by simp)

/-- An identifier of the pool is not 0: slot 0 is live (R42, R51). -/
theorem MemInv.ne_zero_of_mem_pool (h : MemInv m bound) {id : Word} (hid : id ∈ m.pool) : id ≠ 0 := by
  rintro rfl
  obtain ⟨g₀, hg₀, -⟩ := h.programSegment
  have hdead := Memory.segment?_eq_none.2 (.inr ((h.poolFreed 0).1 hid))
  rw [hg₀] at hdead
  cases hdead

/-- The top of the pool comes back to life: its slot was the tombstone of that identifier alone (R48). -/
theorem MemInv.allocReused (h : MemInv m bound) {id : Word} {rest : List Word}
    (hp : m.pool = id :: rest) (n : Word) :
    MemInv ({ m with pool := rest }.putSlot id (.live (Segment.zeros n))) bound := by
  have hmem : id ∈ m.pool := hp ▸ List.mem_cons_self
  have hlt : id.toNat < m.tableLen := (List.getElem?_eq_some_iff.1 ((h.poolFreed id).1 hmem)).1
  have hlt' : id.toNat < ({ m with pool := rest } : Memory).tableLen := hlt
  obtain ⟨hfresh, hrest⟩ := List.nodup_cons.1 (hp ▸ h.poolNodup)
  constructor
  case memory => exact Memory.putSlot_wf (m := { m with pool := rest }) h.memory id rfl
  case program =>
    rw [Memory.segment?_putSlot_live _ hlt', if_neg (Ne.symm (h.ne_zero_of_mem_pool hmem))]
    exact h.program
  case poolNodup => exact hrest
  case poolFreed =>
    intro j
    rw [Memory.putSlot_slot_word _ hlt', Memory.putSlot_pool]
    by_cases hj : j = id
    · simp [hj, hfresh]
    · rw [if_neg hj, ← h.poolFreed j, hp, List.mem_cons, or_iff_right hj]
  case tableFits => exact (Memory.putSlot_tableLen _ _ _).trans_le h.tableFits

/-- A live slot appended to the table, while an identifier is left for it (R43, R48, D8). -/
theorem MemInv.allocAppended (h : MemInv m bound)
    (hlen : m.tableLen < Config.maxSlots) (n : Word) :
    MemInv { m with slots := m.slots ++ [.live (Segment.zeros n)] } bound := by
  obtain ⟨g₀, hg₀, -⟩ := h.programSegment
  constructor
  case memory =>
    have hwf := h.memory
    simp only [Memory.wf, List.all_append, Bool.and_eq_true] at hwf ⊢
    exact ⟨hwf, rfl⟩
  case program =>
    have hpos := Memory.segment?_lt hg₀
    have hne : (0 : Word) ≠ BitVec.ofNat 32 m.tableLen := by
      simp only [Config.maxSlots] at hlen
      intro he
      have htoNat := congrArg BitVec.toNat he
      rw [BitVec.toNat_ofNat, Nat.mod_eq_of_lt hlen] at htoNat
      exact absurd htoNat (Nat.ne_of_lt hpos)
    rw [Memory.segment?_append _ hlen, if_neg hne]
    exact h.program
  case poolNodup => exact h.poolNodup
  case poolFreed =>
    intro j
    rw [h.poolFreed j, List.getElem?_append]
    split
    · rfl
    · next hj => simp [List.getElem?_singleton, List.getElem?_eq_none (Nat.not_lt.1 hj)]
  case tableFits => simpa [Memory.tableLen] using hlen

theorem MemInv.alloc (h : MemInv m bound) {yes : Bool} {n id : Word}
    (ha : m.alloc yes n = .ok (id, m')) : MemInv m' bound := by
  obtain ⟨-, ⟨rest, hp, rfl⟩ | ⟨-, hlen, -, rfl⟩⟩ := Memory.alloc_eq_ok.1 ha
  · exact h.allocReused hp n
  · exact h.allocAppended hlen n

/-- A live identifier other than 0 goes from the table to the pool (R50). -/
theorem MemInv.free (h : MemInv m bound) {id : Word} (hf : m.free id = .ok m') :
    MemInv m' bound := by
  have hwf := Memory.free_wf h.memory hf
  obtain ⟨hid, hv, rfl⟩ := Memory.free_eq_ok.1 hf
  obtain ⟨g, hg⟩ := Memory.valid_eq_true.1 hv
  have hlt := Memory.segment?_lt hg
  have hlive : id ∉ m.pool := by
    rw [h.poolFreed, Memory.segment?_eq_some.1 hg]
    simp
  constructor
  case memory => exact hwf
  case program =>
    have hzero := (Memory.segment?_putSlot_tombstone hlt 0).trans (if_neg (Ne.symm hid))
    exact hzero ▸ h.program
  case poolNodup => exact List.nodup_cons.2 ⟨hlive, h.poolNodup⟩
  case poolFreed =>
    intro j
    rw [List.mem_cons, Memory.putSlot_slot_word _ hlt, h.poolFreed]
    by_cases hj : j = id <;> simp [hj]
  case tableFits => exact (Memory.putSlot_tableLen _ _ _).trans_le h.tableFits

end

/-! ### Every step keeps the invariant -/

theorem MemEffect.memInv {i : Instr} {s t : State} (e : MemEffect i s t)
    (h : MemInv s.mem s.bound) : MemInv t.mem t.bound := by
  cases e with
  | kept hm hb => rwa [hm, hb]
  | stored a b c _ hm hb => exact hb ▸ h.write hm
  | mapped b c id _ hm hb => exact hb ▸ h.alloc hm
  | unmapped c _ hm hb => exact hb ▸ h.free hm
  | replaced b c g _ _ hg hm hb => exact hm ▸ hb ▸ h.replace hg

theorem RunEffect.released_iff {i : Instr} {s t : State} (e : RunEffect i s t)
    (h : s.released = true ↔ s.run = .halted) : t.released = true ↔ t.run = .halted := by
  cases e with
  | kept hr hl => rwa [hr, hl]
  | halted _ hr hl => simp [hr, hl]

theorem RunEffect.not_faulted {i : Instr} {s t : State} (e : RunEffect i s t)
    (h : ∀ f, s.run ≠ .faulted f) (f : Fault) : t.run ≠ .faulted f := by
  cases e with
  | kept hr _ => exact hr ▸ h f
  | halted _ hr _ => simp [hr]

theorem exec_keeps_inv {i : Instr} {s t : State} (h : Inv s) (he : exec i s = .next t) : Inv t := by
  obtain ⟨hmem, hreleased, hfaulted⟩ := inv_iff_memInv.1 h
  obtain ⟨-, memEffect, runEffect⟩ := exec_next_effects he
  exact inv_iff_memInv.2
    ⟨memEffect.memInv hmem, runEffect.released_iff hreleased, runEffect.not_faulted hfaulted⟩

/-- The end of a run at or past bound: it was running, so nothing was released (R96, R97). -/
theorem Inv.ended {s : State} (h : Inv s) (hr : s.run = .running) :
    Inv { s with run := .ended } := by
  obtain ⟨hmem, hreleased, -⟩ := inv_iff_memInv.1 h
  exact inv_iff_memInv.2 ⟨hmem, by simpa [hr] using hreleased, by simp⟩

/-- Settles O45: a step ends the run or executes an instruction, and what an instruction does to the
memory is one of the transactions that keep `MemInv`. -/
theorem stepKeepsTheInvariant : Obligations.StepKeepsTheInvariant := by
  intro s t h hstep
  obtain ⟨hrun, ⟨rfl, -⟩ | ⟨i, -, he⟩⟩ := step_eq_next.1 hstep
  · exact h.ended hrun
  · exact exec_keeps_inv h he

/-! ### Who changes bound, who changes a register -/

/-- Settles O49: of the effects an instruction can have on the memory, only the replacement of segment 0
changes bound. -/
theorem boundChangesOnlyByProgramReplacement :
    Obligations.BoundChangesOnlyByProgramReplacement := by
  intro s t hstep hne
  obtain ⟨-, ⟨rfl, -⟩ | ⟨i, hi, he⟩⟩ := step_eq_next.1 hstep
  · exact absurd rfl hne
  · obtain ⟨-, memEffect, -⟩ := exec_next_effects he
    cases memEffect with
    | kept _ hb => exact absurd hb hne
    | stored _ _ _ _ _ hb => exact absurd hb hne
    | mapped _ _ _ _ _ hb => exact absurd hb hne
    | unmapped _ _ _ hb => exact absurd hb hne
    | replaced b c g hinstr hsource hg _ hb =>
      exact ⟨b, c, hinstr ▸ hi, hsource, by simp [hg, hb]⟩

theorem RegsEffect.regWritten_eq_of_ne {i : Instr} {s t : State} (e : RegsEffect i s t) {r : Reg}
    (h : t.reg r ≠ s.reg r) : regWritten i = some r := by
  cases e with
  | kept hregs => exact absurd (State.reg_of_regs hregs r) h
  | written q v hdest hregs =>
    rw [State.reg_of_regs hregs, State.reg_setReg] at h
    split at h
    · next hrq => rwa [hrq]
    · exact absurd rfl h

theorem regsRead_length_le (i : Instr) : (regsRead i).length ≤ 3 := by
  cases i <;> simp [regsRead]

/-- Settles O50: a register that differs after `exec` is the destination of the instruction. -/
theorem onlyTheWrittenRegisterChanges : Obligations.OnlyTheWrittenRegisterChanges :=
  ⟨fun _ _ _ _ he hne => (exec_next_effects he).1.regWritten_eq_of_ne hne, regsRead_length_le⟩

/-! ### Registers that are not read -/

section
variable {r : Reg} {s t : State}

/-- The same update of everything but the registers, on two states that agree on everything but `r`. -/
theorem AgreeBut.update (h : AgreeBut r s t) (u : State → State)
    (keepsRegs : ∀ s, (u s).regs = s.regs := by intros; rfl)
    (frame : ∀ s regs, u { s with regs := regs } = { u s with regs := regs } := by intros; rfl) :
    AgreeBut r (u s) (u t) := by
  obtain ⟨hregs, ht⟩ := h
  constructor
  · intro q hq
    rw [State.reg_of_regs (keepsRegs s), State.reg_of_regs (keepsRegs t)]
    exact hregs q hq
  · rw [keepsRegs t, ← frame, ← ht]

/-- The same value written to the same register keeps two states in agreement. -/
theorem AgreeBut.setReg (h : AgreeBut r s t) (a : Reg) (v : Word) :
    AgreeBut r (s.setReg a v) (t.setReg a v) := by
  obtain ⟨hregs, ht⟩ := h
  constructor
  · intro q hq
    rw [State.reg_setReg, State.reg_setReg, hregs q hq]
  · rw [ht]
    rfl

theorem AgreeBut.retire (h : AgreeBut r s t) : OutcomesAgreeBut r (retire s) (retire t) :=
  h.update fun u => { u with pc := u.pc + 1 }

theorem AgreeBut.retire_setReg (h : AgreeBut r s t) (a : Reg) (v : Word) :
    OutcomesAgreeBut r (Machine.retire (s.setReg a v)) (Machine.retire (t.setReg a v)) :=
  (h.setReg a v).retire

theorem AgreeBut.pc (h : AgreeBut r s t) : t.pc = s.pc := (congrArg State.pc h.2 :)

theorem AgreeBut.mem (h : AgreeBut r s t) : t.mem = s.mem := (congrArg State.mem h.2 :)

theorem AgreeBut.input (h : AgreeBut r s t) : t.input = s.input := (congrArg State.input h.2 :)

theorem AgreeBut.canHold (h : AgreeBut r s t) : t.canHold = s.canHold := (congrArg State.canHold h.2 :)

theorem AgreeBut.currentWord (h : AgreeBut r s t) : t.currentWord = s.currentWord :=
  (congrArg State.currentWord h.2 :)

theorem AgreeBut.reg_of_read (h : AgreeBut r s t) {i : Instr} (hr : r ∉ regsRead i) :
    ∀ q ∈ regsRead i, t.reg q = s.reg q := by
  intro q hq
  refine (h.1 q ?_).symm
  rintro rfl
  exact hr hq

end

/-- Settles O51: the two runs of an instruction read the same values, so they take the same branch, with
the same fault or the same update of the two states. -/
theorem unreadRegistersDoNotMatter : Obligations.UnreadRegistersDoNotMatter := by
  intro i r s t hr h
  have hread := h.reg_of_read hr
  cases i with
  | conditionalMove a b c =>
    simp only [exec, execConditionalMove, hread b (.head _), hread c (.tail _ (.head _))]
    split
    · exact h.retire_setReg a _
    · exact h.retire
  | segmentLoad a b c =>
    simp only [exec, execSegmentLoad, loadAddress, State.segAddr, h.mem, hread b (.head _),
      hread c (.tail _ (.head _))]
    rcases s.mem.read (s.reg b) (s.reg c) with f | w
    · exact rfl
    · exact h.retire_setReg a w
  | segmentStore a b c =>
    simp only [exec, execSegmentStore, storeAddress, State.segAddr, h.mem, hread a (.head _),
      hread b (.tail _ (.head _)), hread c (.tail _ (.tail _ (.head _)))]
    rcases s.mem.write (s.reg a) (s.reg b) (s.reg c) with f | m
    · exact rfl
    · exact (h.update fun u => { u with mem := m }).retire
  | add a b c =>
    simp only [exec, execAdd, hread b (.head _), hread c (.tail _ (.head _))]
    exact h.retire_setReg a _
  | multiply a b c =>
    simp only [exec, execMultiply, hread b (.head _), hread c (.tail _ (.head _))]
    exact h.retire_setReg a _
  | divide a b c =>
    simp only [exec, execDivide, h.pc, h.currentWord, hread b (.head _), hread c (.tail _ (.head _))]
    split
    · exact rfl
    · exact h.retire_setReg a _
  | bitwiseNand a b c =>
    simp only [exec, execBitwiseNand, hread b (.head _), hread c (.tail _ (.head _))]
    exact h.retire_setReg a _
  | halt =>
    exact h.update fun u => { u.teardown with run := .halted }
  | mapSegment b c =>
    simp only [exec, execMapSegment, h.mem, h.canHold, hread c (.head _)]
    rcases s.mem.alloc s.canHold (s.reg c) with f | ⟨id, m⟩
    · exact rfl
    · exact (h.update fun u => { u.capacityAsked with mem := m }).retire_setReg b id
  | unmapSegment c =>
    simp only [exec, execUnmapSegment, h.mem, hread c (.head _)]
    split
    · exact rfl
    · rcases s.mem.free (s.reg c) with f | m
      · exact rfl
      · exact (h.update fun u => { u with mem := m }).retire
  | output c =>
    simp only [exec, execOutput, hread c (.head _)]
    split
    · exact rfl
    · exact (h.update fun u => u.outByte _).retire
  | input c =>
    simp only [exec, execInput, h.input]
    rcases s.input.take with _ | ⟨v | _, src⟩
    · exact h
    · dsimp only
      split
      · exact rfl
      · exact (h.update fun u => { u with input := src }).retire_setReg c v
    · exact (h.update fun u => { u with input := src }).retire_setReg c _
  | loadProgram b c =>
    simp only [exec, execLoadProgram, h.mem, h.canHold, hread b (.head _), hread c (.tail _ (.head _))]
    rcases s.mem.replace0 s.canHold (s.reg b) with f | ⟨_ | n, m⟩
    · exact rfl
    · exact h.update fun u => { u with mem := m, pc := s.reg c }
    · exact h.update fun u => { u.capacityAsked with mem := m, pc := s.reg c, bound := n }
  | loadValue a imm =>
    exact h.retire_setReg a _

end Sys2Proof.Machine
end

section
/-! PROOFS. The memory family (spec/20_memory.md): validity and the faults of the Address Space, what each
transaction does to the table, the pool and the other segments, and from these what one step does to the
table and to a segment that stays live. -/

namespace Sys2Proof.Machine

/-! ### Validity and faults -/

/-- Settles O24: an identifier is not valid exactly where it names no segment. -/
theorem validIdentifiersAreLiveSlots : Obligations.ValidIdentifiersAreLiveSlots := by
  intro m id
  rw [← Bool.not_eq_false, Memory.valid_eq_false, Memory.segment?_eq_none, not_or, Nat.not_le]

/-- Settles O29: both conditions are those of a failing allocation. -/
theorem mapSegmentFaultsWhenExhausted : Obligations.MapSegmentFaultsWhenExhausted := by
  intro b c s h
  refine exec_mapSegment_fault.2 ⟨?_, rfl⟩
  obtain hno | ⟨hpool, hlen⟩ := h
  · exact .inl hno
  · exact .inr ⟨hpool, hlen.ge⟩

/-- Settles O36: the faults of load-program from a segment other than 0, by the slot of x[B]. -/
theorem loadProgramFaultsOnInvalidOrExhausted :
    Obligations.LoadProgramFaultsOnInvalidOrExhausted := by
  intro b c s hb
  constructor
  · intro hslot
    have hinvalid := Memory.valid_eq_false.2 (Memory.segment?_eq_none.2 hslot)
    exact exec_loadProgram_fault.2 ⟨hb, .inl ⟨hinvalid, rfl⟩⟩
  · intro g hslot hno
    exact exec_loadProgram_fault.2
      ⟨hb, .inr ⟨hno, g, Memory.segment?_eq_some.2 hslot, rfl⟩⟩

/-! ### The table and the pool after a transaction -/

section
variable {m m' : Memory}

theorem Memory.write_tableLen {id off v : Word} (h : m.write id off v = .ok m') :
    m'.tableLen = m.tableLen := by
  obtain ⟨g, -, -, rfl⟩ := Memory.write_eq_ok.1 h
  exact Memory.putSlot_tableLen _ _ _

theorem Memory.free_pool {id : Word} (h : m.free id = .ok m') : m'.pool = id :: m.pool := by
  obtain ⟨-, -, rfl⟩ := Memory.free_eq_ok.1 h
  rfl

theorem Memory.free_tableLen {id : Word} (h : m.free id = .ok m') : m'.tableLen = m.tableLen := by
  obtain ⟨-, -, rfl⟩ := Memory.free_eq_ok.1 h
  exact Memory.putSlot_tableLen m id .tombstone

/-- An allocation lengthens the table only when it finds the pool empty (R43, R48). -/
theorem Memory.alloc_tableLen {yes : Bool} {n id : Word} (h : m.alloc yes n = .ok (id, m')) :
    m'.tableLen = m.tableLen ∨ (m'.tableLen = m.tableLen + 1 ∧ m.pool = []) := by
  obtain ⟨-, ⟨rest, -, rfl⟩ | ⟨hpool, -, -, rfl⟩⟩ := Memory.alloc_eq_ok.1 h
  · exact .inl (Memory.putSlot_tableLen _ _ _)
  · exact .inr ⟨List.length_append, hpool⟩

/-- With an identifier in the pool, an allocation that can be held pops it and keeps the table (R48). -/
theorem Memory.alloc_of_pool_cons {id : Word} {rest : List Word} (hpool : m.pool = id :: rest)
    (n : Word) :
    ∃ m', m.alloc true n = .ok (id, m') ∧ m'.pool = rest ∧ m'.tableLen = m.tableLen :=
  ⟨_, Memory.alloc_eq_ok.2 ⟨rfl, .inl ⟨rest, hpool, rfl⟩⟩, rfl, Memory.putSlot_tableLen _ _ _⟩

/-- With an empty pool, an allocation that can be held returns the old table length (R48). -/
theorem Memory.alloc_of_pool_nil (hpool : m.pool = []) (hlen : m.tableLen < Config.maxSlots)
    (n : Word) :
    ∃ m', m.alloc true n = .ok (BitVec.ofNat 32 m.tableLen, m') ∧
      m'.tableLen = m.tableLen + 1 :=
  ⟨_, Memory.alloc_eq_ok.2 ⟨rfl, .inr ⟨hpool, hlen, rfl, rfl⟩⟩, List.length_append⟩

end

/-- Settles O32: each free pushes its identifier on the pool and each allocation pops one, so the two
allocations undo the two frees in the opposite order. -/
theorem freedIdentifiersAreReusedLastFirst : Obligations.FreedIdentifiersAreReusedLastFirst := by
  intro m m1 m2 idB idC n1 n2 _ hfreeB hfreeC
  have hpool2 : m2.pool = idC :: idB :: m.pool := by
    rw [Memory.free_pool hfreeC, Memory.free_pool hfreeB]
  have hlen2 : m2.tableLen = m.tableLen :=
    (Memory.free_tableLen hfreeC).trans (Memory.free_tableLen hfreeB)
  obtain ⟨m3, halloc3, hpool3, hlen3⟩ := Memory.alloc_of_pool_cons hpool2 n1
  obtain ⟨m4, halloc4, hpool4, hlen4⟩ := Memory.alloc_of_pool_cons hpool3 n2
  have hlen : m4.tableLen = m.tableLen := hlen4.trans (hlen3.trans hlen2)
  refine ⟨m3, m4, halloc3, halloc4, hpool4, hlen, ?_⟩
  intro n3 hempty hfits
  rw [← hlen]
  exact Memory.alloc_of_pool_nil (hpool4.trans hempty) (hlen.trans_lt hfits) n3

/-! ### The segments after a transaction -/

/-- Settles O37: segment 0 and the source are two slots, and a store to one leaves the other alone. -/
theorem replacedProgramIsAnIndependentCopy : Obligations.ReplacedProgramIsAnIndependentCopy := by
  intro b c s t hb _
  exact ⟨fun _ _ _ hw => Memory.write_segment?_other hw (Ne.symm hb),
    fun _ _ _ hw => Memory.write_segment?_other hw hb⟩

/-- Settles O55: the word stored at (0, x[B]) is what a fetch at x[B] reads. -/
theorem storeToTheProgramIsFetched : Obligations.StoreToTheProgramIsFetched := by
  intro a b c s t h ha he u humem hupc
  obtain ⟨m, hw, rfl⟩ := exec_segmentStore_next.1 he
  rw [ha] at hw
  rw [State.fetch_eq, Memory.read_eq_ok, humem, hupc, Memory.word?_write h.memory hw,
    if_pos ⟨rfl, rfl⟩]

section
variable {m m' : Memory} {bound : Word}

/-- The old table length as an identifier, while there is one left for it (R48, D8). -/
theorem Memory.toNat_ofNat_tableLen (h : m.tableLen < Config.maxSlots) :
    (BitVec.ofNat 32 m.tableLen).toNat = m.tableLen := Nat.mod_eq_of_lt h

/-- An allocation returns an identifier other than 0 that named no segment: one of the pool, whose slot is
a tombstone, or the old table length (R48, R51). -/
theorem MemInv.alloc_fresh (h : MemInv m bound) {yes : Bool} {n id : Word}
    (ha : m.alloc yes n = .ok (id, m')) : id ≠ 0 ∧ m.segment? id = none := by
  obtain ⟨-, ⟨rest, hpool, -⟩ | ⟨-, hlen, rfl, -⟩⟩ := Memory.alloc_eq_ok.1 ha
  · have hmem : id ∈ m.pool := hpool ▸ List.mem_cons_self
    exact ⟨h.ne_zero_of_mem_pool hmem, Memory.segment?_eq_none.2 (.inr ((h.poolFreed id).1 hmem))⟩
  · have hid := Memory.toNat_ofNat_tableLen hlen
    obtain ⟨g₀, hg₀, -⟩ := h.programSegment
    have hdead : m.segment? (BitVec.ofNat 32 m.tableLen) = none :=
      Memory.segment?_eq_none.2 (.inl hid.ge)
    refine ⟨fun hzero => ?_, hdead⟩
    rw [hzero, hg₀] at hdead
    cases hdead

/-- An allocation names a new segment of zeros and leaves every other identifier what it named. -/
theorem MemInv.alloc_segment? (h : MemInv m bound) {yes : Bool} {n id : Word}
    (ha : m.alloc yes n = .ok (id, m')) (j : Word) :
    m'.segment? j = if j = id then some (Segment.zeros n) else m.segment? j := by
  obtain ⟨-, ⟨rest, hpool, rfl⟩ | ⟨-, hlen, rfl, rfl⟩⟩ := Memory.alloc_eq_ok.1 ha
  · have hslot := (h.poolFreed id).1 (hpool ▸ List.mem_cons_self)
    exact Memory.segment?_putSlot_live _ (List.getElem?_eq_some_iff.1 hslot).1 j
  · exact Memory.segment?_append _ hlen j

/-- A free takes one identifier away and leaves every other what it named (R50). -/
theorem Memory.free_segment? {id : Word} (hf : m.free id = .ok m') (j : Word) :
    m'.segment? j = if j = id then none else m.segment? j := by
  obtain ⟨-, hv, rfl⟩ := Memory.free_eq_ok.1 hf
  obtain ⟨g, hg⟩ := Memory.valid_eq_true.1 hv
  exact Memory.segment?_putSlot_tombstone (Memory.segment?_lt hg) j

end

/-- Settles O54: the identifier an allocation returns was free and names the new segment. -/
theorem mapSegmentReturnsAnUnusedIdentifier : Obligations.MapSegmentReturnsAnUnusedIdentifier := by
  intro b c s t h he
  obtain ⟨id, m, ha, rfl⟩ := exec_mapSegment_next.1 he
  have hmem := (inv_iff_memInv.1 h).1
  obtain ⟨hid, hdead⟩ := hmem.alloc_fresh ha
  have hlive : m.segment? id = some (Segment.zeros (s.reg c)) :=
    (hmem.alloc_segment? ha id).trans (if_pos rfl)
  have hreg : ({ s.setReg b id with
      mem := m, capacity := s.capacity.tail, pc := s.pc + 1 } : State).reg b = id :=
    State.reg_setReg_same s b id
  rw [hreg]
  exact ⟨hid, Memory.valid_eq_false.2 hdead, Memory.valid_eq_true.2 ⟨_, hlive⟩⟩

/-! ### What one step does to the memory -/

/-- A step leaves the memory as it was, at the end of a run, or has the effect of the instruction it
ran. -/
theorem step_next_memEffect {s t : State} (h : step s = .next t) :
    t.mem = s.mem ∨ ∃ i, FetchesInstr s i ∧ MemEffect i s t := by
  obtain ⟨-, ⟨rfl, -⟩ | ⟨i, hi, he⟩⟩ := step_eq_next.1 h
  · exact .inl rfl
  · exact .inr ⟨i, hi, (exec_next_effects he).2.1⟩

/-- Settles O52: of the effects an instruction can have on the memory, only an allocation with an empty
pool lengthens the table. -/
theorem segmentTableNeverShrinks : Obligations.SegmentTableNeverShrinks := by
  intro s t hstep
  obtain hmem | ⟨i, hi, memEffect⟩ := step_next_memEffect hstep
  · exact .inl (by rw [hmem])
  · cases memEffect with
    | kept hmem _ => exact .inl (by rw [hmem])
    | stored a b c _ hw _ => exact .inl (Memory.write_tableLen hw)
    | mapped b c id hinstr ha _ =>
      obtain hlen | ⟨hlen, hpool⟩ := Memory.alloc_tableLen ha
      · exact .inl hlen
      · exact .inr ⟨hlen, hpool, b, c, hinstr ▸ hi⟩
    | unmapped c _ hf _ => exact .inl (Memory.free_tableLen hf)
    | replaced b c g _ _ _ hmem _ => exact .inl (by rw [hmem, Memory.putSlot_tableLen])

/-- A segment other than 0 that an instruction leaves live is the same segment, or has had one word
written by a segment-store to it (R41, R46, R47). -/
theorem MemEffect.live_segment {i : Instr} {s t : State} (e : MemEffect i s t)
    (h : MemInv s.mem s.bound) {id : Word} (hid : id ≠ 0) {g g' : Segment}
    (hg : s.mem.segment? id = some g) (hg' : t.mem.segment? id = some g') :
    g' = g ∨ ∃ a b c, i = .segmentStore a b c ∧ s.reg a = id ∧
      g' = g.set (s.reg b) (s.reg c) := by
  have unchanged (hsame : t.mem.segment? id = s.mem.segment? id) : g' = g :=
    Option.some.inj (hg'.symm.trans (hsame.trans hg))
  cases e with
  | kept hmem _ => exact .inl (unchanged (by rw [hmem]))
  | stored a b c hinstr hw _ =>
    by_cases ha : id = s.reg a
    · obtain ⟨g₁, hg₁, -, hmem⟩ := Memory.write_eq_ok.1 hw
      rw [hmem, Memory.segment?_putSlot_live _ (Memory.segment?_lt hg₁), if_pos ha] at hg'
      rw [← ha, hg] at hg₁
      cases hg₁
      exact .inr ⟨a, b, c, hinstr, ha.symm, (Option.some.inj hg').symm⟩
    · exact .inl (unchanged (Memory.write_segment?_other hw ha))
  | mapped b c new _ ha _ =>
    have hne : id ≠ new := by
      rintro rfl
      rw [(h.alloc_fresh ha).2] at hg
      cases hg
    exact .inl (unchanged ((h.alloc_segment? ha id).trans (if_neg hne)))
  | unmapped c _ hf _ =>
    have hne : id ≠ s.reg c := by
      intro hfreed
      rw [Memory.free_segment? hf, if_pos hfreed] at hg'
      cases hg'
    exact .inl (unchanged ((Memory.free_segment? hf id).trans (if_neg hne)))
  | replaced b c g₁ _ _ _ hmem _ =>
    refine .inl (unchanged ?_)
    rw [hmem, Memory.segment?_putSlot_live _ (Memory.zero_lt_tableLen hg), if_neg hid]

/-- Settles O53: the memory is as before or has the effect of one instruction, and a store keeps the
length of the segment it writes. -/
theorem liveSegmentsKeepTheirLengthAndWords :
    Obligations.LiveSegmentsKeepTheirLengthAndWords := by
  intro s t id g g' h hstep hid hg hg'
  obtain hmem | ⟨i, hi, memEffect⟩ := step_next_memEffect hstep
  · rw [hmem, hg] at hg'
    cases hg'
    exact ⟨rfl, .inl rfl⟩
  · obtain rfl | ⟨a, b, c, rfl, ha, rfl⟩ :=
      memEffect.live_segment (inv_iff_memInv.1 h).1 hid hg hg'
    · exact ⟨rfl, .inl rfl⟩
    · exact ⟨Segment.set_len _ _ _, .inr ⟨a, b, c, hi, ha⟩⟩

/-! ### The memory the loader makes -/

/-- The memory of a loaded program: segment 0 alone, the pool empty (R34, R49, R201). -/
theorem MemInv.ofWords {words : List Word} (h : words.length ≤ Config.maxSegmentWords) :
    MemInv ⟨[.live (Segment.ofWords words)], []⟩ (BitVec.ofNat 32 words.length) where
  memory := by
    simp [Memory.wf, Slot.wf, Segment.ofWords_wf h]
  program := rfl
  poolNodup := .nil
  poolFreed id := by
    simp [List.getElem?_singleton]
  tableFits := by
    simp [Memory.tableLen, Config.maxSlots]

/-- Settles O44: the loader makes the memory of `MemInv.ofWords` and a running machine. -/
theorem loadedStateMeetsTheInvariant : Obligations.LoadedStateMeetsTheInvariant := by
  intro regs src capacity config words s hload
  obtain ⟨hlen, rfl⟩ := load_eq_some.1 hload
  exact inv_iff_memInv.2 ⟨MemInv.ofWords hlen, by simp [startState], by simp [startState]⟩

end Sys2Proof.Machine
end

section
/-! PROOFS. The encoding family (spec/30_encoding.md): the bits each field accessor reads, and the words
that raise DispatchFault. -/

namespace Sys2Proof

/-- Settles O2: each accessor is a quotient of the word, cut to the width of its field. -/
theorem fieldAccessorsReadTheStatedBits : Obligations.FieldAccessorsReadTheStatedBits := by
  intro w
  have hopcode : w.toNat / 2 ^ 28 < 2 ^ 4 := Nat.div_lt_of_lt_mul w.isLt
  refine ⟨?opcode, ?a, ?aImm, ?b, ?c, ?imm⟩
  case opcode => rw [fieldOpcode_eq, BitVec.toNat_ofNat, Nat.mod_eq_of_lt hopcode]
  case a => rw [fieldA_eq, Fin.val_ofNat]
  case aImm => rw [fieldAImm_eq, Fin.val_ofNat]
  case b => rw [fieldB_eq, Fin.val_ofNat]
  case c => rw [fieldC_eq, Fin.val_ofNat]
  case imm => rw [Machine.immediateValue_toNat, fieldImm_eq, BitVec.toNat_ofNat]

/-- The words the decoder rejects (R82, R83). -/
theorem exists_decode_eq_error {w : Word} : (∃ e, decode w = .error e) ↔ 14 ≤ w.toNat / 2 ^ 28 := by
  constructor
  · rintro ⟨e, he⟩
    obtain ⟨o, -, hd⟩ | ⟨hill, -⟩ := decode_cases w
    · rw [hd] at he; cases he
    · exact hill
  · exact fun h => ⟨_, decode_of_illegal h⟩

end Sys2Proof

namespace Sys2Proof.Machine

/-- Only the loop raises DispatchFault (R94): no instruction's own fault is one. -/
theorem exec_ne_dispatchFault (i : Instr) (s : State) (op : BitVec 4) (pc w : Word) :
    exec i s ≠ .fault (.dispatchFault op pc w) := by
  intro h
  cases i with
  | conditionalMove => exact exec_conditionalMove_ne_fault h
  | segmentLoad => cases (exec_segmentLoad_fault.1 h).2
  | segmentStore => cases (exec_segmentStore_fault.1 h).2
  | add => exact exec_add_ne_fault h
  | multiply => exact exec_multiply_ne_fault h
  | divide => cases (exec_divide_fault.1 h).2
  | bitwiseNand => exact exec_bitwiseNand_ne_fault h
  | halt => exact exec_halt_ne_fault h
  | mapSegment => cases (exec_mapSegment_fault.1 h).2
  | unmapSegment => obtain ⟨-, hf⟩ | ⟨-, -, hf⟩ := exec_unmapSegment_fault.1 h <;> cases hf
  | output => cases (exec_output_fault.1 h).2
  | input => obtain ⟨_, _, -, -, hf⟩ := exec_input_fault.1 h; cases hf
  | loadProgram =>
    obtain ⟨-, ⟨-, hf⟩ | ⟨-, _, -, hf⟩⟩ := exec_loadProgram_fault.1 h <;> cases hf
  | loadValue => exact exec_loadValue_ne_fault h

/-- The states in which a step raises DispatchFault, and what it carries (R82, R94). -/
theorem step_eq_dispatchFault {s : State} {op : BitVec 4} {pc w : Word} :
    step s = .fault (.dispatchFault op pc w) ↔
      s.run = .running ∧ s.pc < s.bound ∧ s.mem.word? 0 s.pc = some w ∧ 14 ≤ w.toNat / 2 ^ 28 ∧
        op = fieldOpcode w ∧ pc = s.pc := by
  rw [step_eq_fault]
  constructor
  · rintro ⟨hrun, ⟨-, -, hf⟩ | ⟨-, -, hf⟩ | ⟨v, hpc, hv, ⟨e, he, hf⟩ | ⟨i, -, hf⟩⟩⟩
    · cases hf
    · cases hf
    · cases hf
      exact ⟨hrun, hpc, hv, exists_decode_eq_error.1 ⟨e, he⟩, rfl, rfl⟩
    · exact absurd hf (exec_ne_dispatchFault i s op pc w)
  · rintro ⟨hrun, hpc, hw, hill, rfl, rfl⟩
    exact ⟨hrun, .inr (.inr ⟨w, hpc, hw, .inl ⟨_, decode_of_illegal hill, rfl⟩⟩)⟩

/-- Settles O16: `step_eq_dispatchFault` read in both directions for the word at pc. -/
theorem illegalOpcodeFaultsAtDispatch : Obligations.IllegalOpcodeFaultsAtDispatch := by
  intro s w hrun hpc hw
  constructor
  · intro hill
    exact step_eq_dispatchFault.2 ⟨hrun, hpc, hw, hill, (fieldOpcode_eq w).symm, rfl⟩
  · intro hlegal op pc v hf
    obtain ⟨-, -, hv, hill, -, -⟩ := step_eq_dispatchFault.1 hf
    obtain rfl : w = v := Option.some.inj (hw.symm.trans hv)
    exact absurd hill (Nat.not_le.2 hlegal)

end Sys2Proof.Machine
end

section
/-! PROOFS. The execution loop (spec/40_execution_loop.md): what a step does at, past and below bound, where
an executed instruction leaves pc, how a run ends, and what is observed once it is over. -/

namespace Sys2Proof.Machine

/-! ### One step -/

/-- The loop adds nothing around the instruction it fetches (R91 to R95). -/
theorem FetchesInstr.step_eq_exec {s : State} {i : Instr} (h : FetchesInstr s i) :
    step s = exec i s := by
  obtain ⟨hrun, hpc, w, hw, hi⟩ := h
  have hfetch : s.fetch = .ok w := Memory.read_eq_ok.2 hw
  have hne : s.pc ≠ s.bound := BitVec.ne_of_lt hpc
  have hle : ¬ s.bound < s.pc := BitVec.lt_asymm hpc
  simp [step, hrun, hne, hle, hfetch, hi]

/-- Settles O13: the hypotheses are those of `FetchesInstr`. -/
theorem stepRunsTheDecodedInstruction : Obligations.StepRunsTheDecodedInstruction :=
  fun _ w _ hrun hpc hw hi => FetchesInstr.step_eq_exec ⟨hrun, hpc, w, hw, hi⟩

/-- Settles O14: pc = bound is one of the two ends of `step_eq_next`. -/
theorem stepAtBoundEndsTheRun : Obligations.StepAtBoundEndsTheRun :=
  fun _ hrun hpc => ⟨step_eq_next.2 ⟨hrun, .inl ⟨rfl, .inl hpc⟩⟩, rfl, rfl⟩

/-- Settles O15: pc > bound is the other end of `step_eq_next`, or the loop's own fault. -/
theorem stepPastBoundFollowsTheParameter : Obligations.StepPastBoundFollowsTheParameter :=
  fun _ hrun hpc =>
    ⟨fun hfault => step_eq_fault.2 ⟨hrun, .inl ⟨hpc, hfault, rfl⟩⟩,
      fun hend => step_eq_next.2 ⟨hrun, .inl ⟨rfl, .inr ⟨hpc, hend⟩⟩⟩⟩

/-- Settles O17: the step is refused. -/
theorem noStepOnceTheRunIsOver : Obligations.NoStepOnceTheRunIsOver := by
  intro s hover t
  simp [step_of_not_running hover]

/-- Below bound there is a word to fetch: bound is the length of segment 0 (R27, R92). -/
theorem Inv.exists_word_at_pc {s : State} (h : Inv s) (hpc : s.pc < s.bound) :
    ∃ w, s.mem.word? 0 s.pc = some w := by
  obtain ⟨g, hg, hlen⟩ := h.programSegment
  exact ⟨g.get s.pc, Memory.word?_eq_some.2 ⟨g, hg, hlen ▸ hpc, rfl⟩⟩

/-- Settles O46: the fetch reads the word of `Inv.exists_word_at_pc`. -/
theorem fetchNeverFaults : Obligations.FetchNeverFaults := by
  intro s h hpc
  obtain ⟨w, hw⟩ := h.exists_word_at_pc hpc
  exact ⟨w, Memory.read_eq_ok.2 hw, hw⟩

/-! ### Where an executed instruction leaves pc -/

/-- pc after `exec i`: advanced by one, or as one of the three exceptions leaves it (R95, R150, R151,
R165). -/
inductive PcEffect (i : Instr) (s t : State) : Prop where
  | advanced (pc : t.pc = s.pc + 1)
  | jumped (b c : Reg) (instr : i = .loadProgram b c) (pc : t.pc = s.reg c)
  | halted (pc : t.pc = s.pc) (run : t.run = .halted)
  | waited (c : Reg) (instr : i = .input c) (pending : s.input.pending = [])
      (tail : s.input.tail = .unanswered) (same : t = s)

theorem exec_next_pcEffect {i : Instr} {s t : State} (h : exec i s = .next t) : PcEffect i s t := by
  cases i with
  | conditionalMove =>
    obtain ⟨-, rfl⟩ | ⟨-, rfl⟩ := exec_conditionalMove_next.1 h <;> exact .advanced rfl
  | segmentLoad =>
    obtain ⟨_, -, rfl⟩ := exec_segmentLoad_next.1 h
    exact .advanced rfl
  | segmentStore =>
    obtain ⟨_, -, rfl⟩ := exec_segmentStore_next.1 h
    exact .advanced rfl
  | add =>
    obtain rfl := exec_add_next.1 h
    exact .advanced rfl
  | multiply =>
    obtain rfl := exec_multiply_next.1 h
    exact .advanced rfl
  | divide =>
    obtain ⟨-, rfl⟩ := exec_divide_next.1 h
    exact .advanced rfl
  | bitwiseNand =>
    obtain rfl := exec_bitwiseNand_next.1 h
    exact .advanced rfl
  | halt =>
    obtain rfl := exec_halt_next.1 h
    exact .halted rfl rfl
  | mapSegment =>
    obtain ⟨_, _, -, rfl⟩ := exec_mapSegment_next.1 h
    exact .advanced rfl
  | unmapSegment =>
    obtain ⟨_, -, rfl⟩ := exec_unmapSegment_next.1 h
    exact .advanced rfl
  | output =>
    obtain ⟨-, rfl⟩ := exec_output_next.1 h
    exact .advanced rfl
  | input c =>
    obtain ⟨_, _, -, -, rfl⟩ | ⟨-, -, rfl⟩ | ⟨hpending, htail, hsame⟩ | ⟨_, _, -, -, rfl⟩ :=
      exec_input_next.1 h
    · exact .advanced rfl
    · exact .advanced rfl
    · exact .waited c rfl hpending htail hsame
    · exact .advanced rfl
  | loadProgram b c =>
    obtain ⟨-, rfl⟩ | ⟨-, -, _, -, rfl⟩ := exec_loadProgram_next.1 h <;> exact .jumped b c rfl rfl
  | loadValue =>
    obtain rfl := exec_loadValue_next.1 h
    exact .advanced rfl

/-- Below bound the next pc does not wrap (R100). -/
theorem toNat_pc_add_one {pc bound : Word} (h : pc < bound) : (pc + 1).toNat = pc.toNat + 1 := by
  bv_omega

/-- Settles O48: a step ends the run and leaves pc, or has the effect on pc of the instruction it ran. -/
theorem pcAdvancesByOneExceptAsStated : Obligations.PcAdvancesByOneExceptAsStated := by
  intro s t hstep
  obtain ⟨-, ⟨rfl, -⟩ | ⟨i, hi, he⟩⟩ := step_eq_next.1 hstep
  · exact .inr (.inr (.inl ⟨rfl, .inr rfl⟩))
  · cases exec_next_pcEffect he with
    | advanced hpc =>
      obtain ⟨-, hbelow, -⟩ := hi
      exact .inl ⟨hbelow, hpc ▸ toNat_pc_add_one hbelow⟩
    | jumped b c hinstr hpc => exact .inr (.inl ⟨b, c, hinstr ▸ hi, hpc⟩)
    | halted hpc hrun => exact .inr (.inr (.inl ⟨hpc, .inl hrun⟩))
    | waited c hinstr hpending htail hsame =>
      exact .inr (.inr (.inr ⟨hsame, c, hinstr ▸ hi, hpending, htail⟩))

/-! ### How a run ends -/

/-- Settles O60: a step ends the run at or past bound, or the instruction it ran left the running machine
not running, as only halt does. -/
theorem runEndsOnlyByHaltOrTheBound : Obligations.RunEndsOnlyByHaltOrTheBound := by
  intro s t hstep hover
  obtain ⟨hrun, ⟨rfl, hend⟩ | ⟨i, hi, he⟩⟩ := step_eq_next.1 hstep
  · exact .inr ⟨rfl, hend⟩
  · obtain ⟨-, -, runEffect⟩ := exec_next_effects he
    cases runEffect with
    | kept hkept _ => exact absurd (hkept.trans hrun) hover
    | halted hinstr hhalted _ => exact .inl ⟨hhalted, hinstr ▸ hi⟩

/-! ### What is observed of a run -/

section
variable {host : Nat → HostEvent} {s : State} (k : Nat)

theorem observe_succ_of_next {t : State} (h : step (s.afterEvent (host 0)) = .next t) :
    observe host (k + 1) s = observe (fun n => host (n + 1)) k t := by
  simp only [observe, h]

theorem observe_succ_of_fault {f : Fault} (h : step (s.afterEvent (host 0)) = .fault f) :
    observe host (k + 1) s = ⟨.faulted f, s.out, none⟩ := by
  simp only [observe, h]

theorem observe_succ_of_refused {r : Refusal} (h : step (s.afterEvent (host 0)) = .refused r) :
    observe host (k + 1) s = ⟨s.run, s.out, some s⟩ := by
  simp only [observe, h]

/-- A state whose run is over is all that is observed from it, however long one looks (R101). -/
theorem observe_of_not_running (h : s.run ≠ .running) :
    observe host k s = ⟨s.run, s.out, some s⟩ := by
  cases k with
  | zero => rfl
  | succ k =>
    have hover : (s.afterEvent (host 0)).run ≠ .running := by rwa [State.afterEvent_run]
    exact observe_succ_of_refused k (step_of_not_running hover)

end

/-- Once the run is over, more steps observe the same (R99, R101). -/
theorem observe_add_of_not_running {host : Nat → HostEvent} {k : Nat} {s : State}
    (h : (observe host k s).status ≠ .running) (j : Nat) :
    observe host (k + j) s = observe host k s := by
  induction k generalizing host s with
  | zero => exact (observe_of_not_running _ h).trans (observe_of_not_running 0 h).symm
  | succ k ih =>
    rw [Nat.add_right_comm]
    cases hstep : step (s.afterEvent (host 0)) with
    | next t =>
      rw [observe_succ_of_next _ hstep] at h ⊢
      rw [observe_succ_of_next _ hstep, ih h]
    | fault f => rw [observe_succ_of_fault _ hstep, observe_succ_of_fault _ hstep]
    | refused r => rw [observe_succ_of_refused _ hstep, observe_succ_of_refused _ hstep]

/-- What is observed is the run state and the output of a final state, or a fault without a state (R99,
R186). -/
theorem observe_cases (host : Nat → HostEvent) (k : Nat) (s : State) :
    (∃ t, observe host k s = ⟨t.run, t.out, some t⟩) ∨
      ∃ f out, observe host k s = ⟨.faulted f, out, none⟩ := by
  induction k generalizing host s with
  | zero => exact .inl ⟨s, rfl⟩
  | succ k ih =>
    cases hstep : step (s.afterEvent (host 0)) with
    | next t => rw [observe_succ_of_next _ hstep]; exact ih _ t
    | fault f => exact .inr ⟨f, s.out, observe_succ_of_fault _ hstep⟩
    | refused r => exact .inl ⟨s, observe_succ_of_refused _ hstep⟩

/-- A fault would be final, so a run without one had none before (R99). -/
theorem SafeFor.of_add {host : Nat → HostEvent} {k j : Nat} {s : State}
    (h : SafeFor host (k + j) s) : SafeFor host k s := by
  intro f hf
  have hover : (observe host k s).status ≠ .running := by simp [hf]
  exact h f (observe_add_of_not_running hover j ▸ hf)

/-- After a successful end everything output has been delivered, in order (R162, D10). -/
theorem delivered_iff_of_success {o : Observation} (h : o.status.success = true) {bytes : List Byte} :
    Delivered o bytes ↔ bytes = o.out := by
  unfold Delivered
  cases hs : o.status with
  | halted => exact .rfl
  | ended => exact .rfl
  | running => simp [hs, RunState.success] at h
  | faulted f => simp [hs, RunState.success] at h

/-- Settles O59: `observe_add_of_not_running`, `SafeFor.of_add` and `delivered_iff_of_success`; the state
behind a success is that of `observe_cases`. -/
theorem outcomeOfARunIsFinal : Obligations.OutcomeOfARunIsFinal := by
  intro host k j s
  refine ⟨fun h => observe_add_of_not_running h j, SafeFor.of_add, fun hsuccess =>
    ⟨?_, fun _ => delivered_iff_of_success hsuccess⟩⟩
  obtain ⟨t, ht⟩ | ⟨f, out, hf⟩ := observe_cases host k s
  · exact ⟨t, by simp [ht]⟩
  · simp [hf, RunState.success] at hsuccess

end Sys2Proof.Machine
end

section
/-! PROOFS. Conditional move, arithmetic and logic (spec/41_arith_logic.md): an instruction that writes one
register and advances pc, its result and frame said once, and the value each of the five writes. -/

namespace Sys2Proof.Machine

/-- An instruction that sets `x[a]` to `v` and retires: what follows from the value of `x[a]`, the other
registers, and the frame (R12, R95). -/
theorem completes_of_setReg {i : Instr} {s : State} {a : Reg} {v : Word} {P : State → Prop}
    (he : exec i s = .next { s.setReg a v with pc := s.pc + 1 }) (hP : ∀ t, t.reg a = v → P t) :
    Completes i s fun t => P t ∧ (∀ q, q ≠ a → t.reg q = s.reg q) ∧
      t = { s with regs := t.regs, pc := s.pc + 1 } :=
  ⟨_, he, hP _ (State.reg_setReg_same s a v), fun _ hq => State.reg_setReg_other s v hq, rfl⟩

theorem nand_getLsbD (x y : Word) {k : Nat} (hk : k < 32) :
    (nand x y).getLsbD k = !(x.getLsbD k && y.getLsbD k) := by
  simp [nand, hk]

/-- Settles O18: with x[C] ≠ 0 it sets x[A] to x[B], with x[C] = 0 only pc moves. -/
theorem conditionalMoveMovesWhenConditionNonzero :
    Obligations.ConditionalMoveMovesWhenConditionNonzero := by
  intro a b c s
  by_cases hc : s.reg c = 0
  · exact ⟨_, exec_conditionalMove_next.2 (.inr ⟨hc, rfl⟩), (if_neg (not_not.2 hc)).symm,
      fun _ _ => rfl, rfl⟩
  · refine completes_of_setReg (exec_conditionalMove_next.2 (.inl ⟨hc, rfl⟩)) fun t hval => ?_
    rw [hval, if_pos hc]

/-- Settles O19: x[A] is set to `addMod`. -/
theorem addWrapsModulo : Obligations.AddWrapsModulo := by
  intro a b c s
  refine completes_of_setReg (exec_add_next.2 rfl) fun t hval => ?_
  rw [hval, addMod_toNat]

/-- Settles O20: x[A] is set to `mulMod`. -/
theorem multiplyKeepsTheLowWord : Obligations.MultiplyKeepsTheLowWord := by
  intro a b c s
  refine completes_of_setReg (exec_multiply_next.2 rfl) fun t hval => ?_
  rw [hval, mulMod_toNat]

/-- Settles O21: x[A] is set to `divFloor` when x[C] ≠ 0; `exec_divide_fault` is the other case. -/
theorem divideIsUnsignedFloorOrFaults : Obligations.DivideIsUnsignedFloorOrFaults := by
  intro a b c s
  refine ⟨fun hc => ?_, fun hc => exec_divide_fault.2 ⟨hc, rfl⟩⟩
  refine completes_of_setReg (exec_divide_next.2 ⟨hc, rfl⟩) fun t hval => ?_
  rw [hval, divFloor_toNat]

/-- Settles O22: x[A] is set to `nand`, read bit by bit. -/
theorem nandComplementsTheAnd : Obligations.NandComplementsTheAnd := by
  intro a b c s
  refine completes_of_setReg (exec_bitwiseNand_next.2 rfl) fun t hval k hk => ?_
  rw [hval, nand_getLsbD _ _ hk]

end Sys2Proof.Machine
end

section
/-! PROOFS. Segment operations (spec/42_segment_ops.md): what a store and a free leave of the table, the
effect of map-segment given its allocation, and each instruction's completion or fault by the slot it
names. -/

namespace Sys2Proof.Machine

/-! ### The table after a store and after a free -/

section
variable {m m' : Memory} {id off v : Word}

theorem Memory.write_pool (h : m.write id off v = .ok m') : m'.pool = m.pool := by
  obtain ⟨g, -, -, rfl⟩ := Memory.write_eq_ok.1 h
  rfl

/-- A store keeps the length of every segment (R41, R47). -/
theorem Memory.write_segment?_len (h : m.write id off v = .ok m') (j : Word) :
    (m'.segment? j).map Segment.len = (m.segment? j).map Segment.len := by
  by_cases hj : j = id
  · obtain ⟨g, hg, -, rfl⟩ := Memory.write_eq_ok.1 h
    rw [hj, hg, Memory.segment?_putSlot_live _ (Memory.segment?_lt hg), if_pos rfl]
    rfl
  · rw [Memory.write_segment?_other h hj]

/-- A free leaves a tombstone in the slot it frees (R50). -/
theorem Memory.free_slot (h : m.free id = .ok m') : m'.slots[id.toNat]? = some .tombstone := by
  obtain ⟨-, hv, rfl⟩ := Memory.free_eq_ok.1 h
  obtain ⟨g, hg⟩ := Memory.valid_eq_true.1 hv
  exact (Memory.putSlot_slot_word _ (Memory.segment?_lt hg) id).trans (if_pos rfl)

/-- No offset of a freed identifier reads (R46, R50). -/
theorem Memory.free_word? (h : m.free id = .ok m') (o : Word) : m'.word? id o = none :=
  Memory.word?_eq_none_of_invalid (.inr (.inl (Memory.free_slot h)))

end

/-! ### segment-load and segment-store -/

/-- Settles O25: x[A] is set to the word of the live slot; `Memory.word?_eq_none_of_invalid` is the other
case. -/
theorem segmentLoadReadsTheWordOrFaults : Obligations.SegmentLoadReadsTheWordOrFaults := by
  intro a b c s
  constructor
  · intro g hslot hoff
    have hword : s.mem.word? (s.reg b) (s.reg c) = some (g.get (s.reg c)) :=
      Memory.word?_eq_some.2 ⟨g, Memory.segment?_eq_some.2 hslot, hoff, rfl⟩
    exact completes_of_setReg (exec_segmentLoad_next.2 ⟨_, hword, rfl⟩) fun _ hval => hval
  · intro hinvalid
    exact exec_segmentLoad_fault.2 ⟨Memory.word?_eq_none_of_invalid hinvalid, rfl⟩

/-- Settles O26: the live slot gives a write that succeeds, and the laws of `Memory.write` say what it
leaves; the invariant gives the canonical form `Memory.word?_write` asks for. -/
theorem segmentStoreWritesOneWordOrFaults : Obligations.SegmentStoreWritesOneWordOrFaults := by
  intro a b c s
  refine ⟨rfl, ?written, ?faults⟩
  case written =>
    intro g h hslot hoff
    obtain ⟨m, hw⟩ : ∃ m, s.mem.write (s.reg a) (s.reg b) (s.reg c) = .ok m :=
      ⟨_, Memory.write_eq_ok.2 ⟨g, Memory.segment?_eq_some.2 hslot, hoff, rfl⟩⟩
    have hread := Memory.word?_write h.memory hw
    exact ⟨_, exec_segmentStore_next.2 ⟨m, hw, rfl⟩, (hread _ _).trans (if_pos ⟨rfl, rfl⟩),
      fun id off hother => (hread id off).trans (if_neg hother), Memory.write_segment?_len hw,
      Memory.write_tableLen hw, Memory.write_pool hw, rfl⟩
  case faults =>
    intro hinvalid
    exact exec_segmentStore_fault.2 ⟨Memory.word?_eq_none_of_invalid hinvalid, rfl⟩

/-! ### map-segment -/

/-- map-segment by the allocation it makes: where `id` is the one identifier whose segment changed, the
registers, the segments and the frame (R48, R132). -/
theorem completes_mapSegment {b c : Reg} {s : State} {id : Word} {m : Memory}
    (ha : s.mem.alloc s.canHold (s.reg c) = .ok (id, m))
    (hseg : ∀ j, m.segment? j =
      if j = id then some (Segment.zeros (s.reg c)) else s.mem.segment? j) :
    Completes (.mapSegment b c) s fun t =>
      t.reg b = id ∧ (∀ q, q ≠ b → t.reg q = s.reg q) ∧
      (t.mem.segment? id).map Segment.len = some (s.reg c) ∧
      (∀ off, off < s.reg c → t.mem.word? id off = some 0) ∧
      (∀ j, j ≠ id → t.mem.segment? j = s.mem.segment? j) ∧ t.mem = m ∧
      t = { s with regs := t.regs, mem := t.mem, capacity := s.capacity.tail, pc := s.pc + 1 } := by
  have hnew : m.segment? id = some (Segment.zeros (s.reg c)) := (hseg id).trans (if_pos rfl)
  exact ⟨_, exec_mapSegment_next.2 ⟨id, m, ha, rfl⟩, State.reg_setReg_same s b id,
    fun _ hq => State.reg_setReg_other s id hq, congrArg (Option.map Segment.len) hnew,
    fun _ hoff => Memory.word?_of_zeros hnew hoff, fun j hj => (hseg j).trans (if_neg hj), rfl, rfl⟩

/-- Settles O27: the allocation pops the pool, whose top the invariant puts in the table. -/
theorem mapSegmentReusesTheLastFreedIdentifier :
    Obligations.MapSegmentReusesTheLastFreedIdentifier := by
  intro b c s id rest h hyes hpool
  obtain ⟨-, hlt⟩ := h.poolTop hpool
  obtain ⟨t, he, hreg, hregs, hlen, hzero, hother, hmem, hframe⟩ := completes_mapSegment (b := b)
    (Memory.alloc_eq_ok.2 ⟨hyes, .inl ⟨rest, hpool, rfl⟩⟩) (Memory.segment?_putSlot_live _ hlt)
  have htable : t.mem.tableLen = s.mem.tableLen := hmem ▸ Memory.putSlot_tableLen _ _ _
  have hrest : t.mem.pool = rest := hmem ▸ Memory.putSlot_pool _ _ _
  exact ⟨t, he, hreg, hregs, hlen, hzero, hother, htable, hrest, hframe⟩

/-- Settles O28: the allocation appends a slot, and the old table length still fits a register. -/
theorem mapSegmentAppendsWhenThePoolIsEmpty : Obligations.MapSegmentAppendsWhenThePoolIsEmpty := by
  intro b c s hyes hpool hfits
  obtain ⟨t, he, hreg, hregs, hlen, hzero, hother, hmem, hframe⟩ := completes_mapSegment (b := b)
    (Memory.alloc_eq_ok.2 ⟨hyes, .inr ⟨hpool, hfits, rfl, rfl⟩⟩) (Memory.segment?_append _ hfits)
  have hid : (t.reg b).toNat = s.mem.tableLen := hreg ▸ Memory.toNat_ofNat_tableLen hfits
  have htable : t.mem.tableLen = s.mem.tableLen + 1 := hmem ▸ List.length_append
  have hempty : t.mem.pool = [] := hmem ▸ hpool
  rw [← hreg] at hlen hzero hother
  exact ⟨t, he, hid, hregs, hlen, hzero, hother, htable, hempty, hframe⟩

/-! ### unmap-segment -/

/-- Settles O30: the free of a live identifier other than 0 succeeds, and the laws of `Memory.free` say
what it leaves. -/
theorem unmapSegmentTombstonesAndPushes : Obligations.UnmapSegmentTombstonesAndPushes := by
  intro c s g hc hslot
  have hvalid := Memory.valid_eq_true.2 ⟨g, Memory.segment?_eq_some.2 hslot⟩
  obtain ⟨m, hf⟩ : ∃ m, s.mem.free (s.reg c) = .ok m :=
    ⟨_, Memory.free_eq_ok.2 ⟨hc, hvalid, rfl⟩⟩
  exact ⟨_, exec_unmapSegment_next.2 ⟨m, hf, rfl⟩, Memory.free_slot hf, Memory.free_pool hf,
    Memory.free_tableLen hf, Memory.free_word? hf,
    fun j hj => (Memory.free_segment? hf j).trans (if_neg hj), rfl⟩

/-- Settles O31: identifier 0 is refused before its slot is looked at, any other by its slot. -/
theorem unmapSegmentFaultsOnTheProgramAndInvalidIds :
    Obligations.UnmapSegmentFaultsOnTheProgramAndInvalidIds := by
  intro c s
  constructor
  · intro hc
    exact exec_unmapSegment_fault.2 (.inl ⟨hc, rfl⟩)
  · intro hc hslot
    have hinvalid := Memory.valid_eq_false.2 (Memory.segment?_eq_none.2 hslot)
    exact exec_unmapSegment_fault.2 (.inr ⟨hc, hinvalid, rfl⟩)

end Sys2Proof.Machine
end

section
/-! PROOFS. halt and load-program (spec/43_control.md): each completes in the one next state its law of
`exec` names; the replaced segment 0 is read through the slot it was put in. -/

namespace Sys2Proof.Machine

/-- Settles O33: the next state is the only one `exec_halt_next` allows. -/
theorem haltEndsTheRunSuccessfully : Obligations.HaltEndsTheRunSuccessfully := by
  intro s
  exact ⟨_, exec_halt_next.2 rfl, rfl, rfl, rfl, rfl⟩

/-- Settles O34: the first case of `exec_loadProgram_next`. -/
theorem loadProgramOfSegmentZeroOnlyJumps : Obligations.LoadProgramOfSegmentZeroOnlyJumps := by
  intro b c s hb
  exact ⟨_, exec_loadProgram_next.2 (.inl ⟨hb, rfl⟩), rfl, rfl⟩

/-- What an identifier reads is fixed by the segment it names (R44, R46). -/
theorem Memory.word?_congr {m m' : Memory} {id id' : Word} (h : m.segment? id = m'.segment? id')
    (off : Word) : m.word? id off = m'.word? id' off := by
  simp only [Memory.word?, h]

/-- Settles O35: the second case of `exec_loadProgram_next`; slot 0 then holds the segment x[B] names, and
every other slot what it held. -/
theorem loadProgramReplacesTheProgram : Obligations.LoadProgramReplacesTheProgram := by
  intro b c s g hb hslot hyes
  have hg : s.mem.segment? (s.reg b) = some g := Memory.segment?_eq_some.2 hslot
  have hseg := Memory.segment?_putSlot_live g (Memory.zero_lt_tableLen hg)
  have hcopy : (s.mem.putSlot 0 (.live g)).segment? 0 = s.mem.segment? (s.reg b) :=
    ((hseg 0).trans (if_pos rfl)).trans hg.symm
  exact ⟨_, exec_loadProgram_next.2 (.inr ⟨hb, hyes, g, hg, rfl⟩), rfl, rfl, Memory.word?_congr hcopy,
    fun j hj => (hseg j).trans (if_neg hj), Memory.putSlot_tableLen _ _ _, Memory.putSlot_pool _ _ _,
    rfl⟩

end Sys2Proof.Machine
end

section
/-! PROOFS. Input and output (spec/44_io.md): what output and input do, what an executed instruction can do
to the two byte streams and the configuration, said once per instruction, and from this what a step and a
run keep. -/

namespace Sys2Proof.Machine

/-! ### output -/

/-- The byte output appends has the value of the register (R161). -/
theorem toNat_ofNat_byte {v : Word} (h : v.toNat < 256) :
    (BitVec.ofNat 8 v.toNat).toNat = v.toNat := Nat.mod_eq_of_lt h

/-- Settles O38: the one next state of `exec_output_next`, or the fault of `exec_output_fault`. -/
theorem outputAppendsOneByteOrFaults : Obligations.OutputAppendsOneByteOrFaults := by
  intro c s
  constructor
  · intro hbyte
    exact ⟨_, exec_output_next.2 ⟨hbyte, rfl⟩, ⟨_, toNat_ofNat_byte hbyte, rfl⟩, rfl⟩
  · intro hlarge
    exact exec_output_fault.2 ⟨hlarge, rfl⟩

/-! ### input -/

section
variable {c : Reg} {s : State}

/-- input with a byte at the front of the pending answers takes it (R164). -/
theorem completes_input_of_pending {v : Word} {rest : List Word} (hp : s.input.pending = v :: rest)
    (hv : v.toNat < 256) :
    Completes (.input c) s fun t => t.reg c = v ∧ (∀ q, q ≠ c → t.reg q = s.reg q) ∧
      t = { s with
        regs := t.regs, input := { s.input with pending := rest }, pc := s.pc + 1 } :=
  ⟨_, exec_input_next.2 (.inl ⟨v, rest, hp, hv, rfl⟩), State.reg_setReg_same s c v,
    fun _ hq => State.reg_setReg_other s v hq, rfl⟩

theorem exec_input_of_exhausted (hp : s.input.pending = []) (ht : s.input.tail = .exhausted) :
    exec (.input c) s = .next { s.setReg c 0xFFFFFFFF with pc := s.pc + 1 } :=
  exec_input_next.2 (.inr (.inl ⟨hp, ht, rfl⟩))

end

/-- Settles O39: a listed answer is the first case of `exec_input_next`, or the fault of
`exec_input_fault`; the byte of an endless stream is its last case. -/
theorem inputTakesTheNextByteOrFaults : Obligations.InputTakesTheNextByteOrFaults := by
  constructor
  · intro c s v rest hp
    exact ⟨completes_input_of_pending hp, fun hv => exec_input_fault.2 ⟨v, rest, hp, hv, rfl⟩⟩
  · intro c s j p hp ht
    refine ⟨_, exec_input_next.2 (.inr (.inr (.inr ⟨j, p, hp, ht, rfl⟩))), ?_,
      fun _ hq => State.reg_setReg_other s _ hq, by rw [← hp]; rfl⟩
    exact (congrArg BitVec.toNat (State.reg_setReg_same s c _)).trans (endless_lt j p)

/-- Settles O40: at the end of the stream x[C] is set to all ones. -/
theorem inputAtEndOfStreamReadsAllOnes : Obligations.InputAtEndOfStreamReadsAllOnes :=
  fun _ _ hp ht => completes_of_setReg (exec_input_of_exhausted hp ht) fun _ hval => hval

/-- Settles O41: nothing pending and no end is the waiting case of `exec_input_next`; a supplied byte is
then the only pending answer, and a closed source is exhausted. -/
theorem inputWaitsForTheSource : Obligations.InputWaitsForTheSource := by
  intro c s hp ht
  refine ⟨exec_input_next.2 (.inr (.inr (.inl ⟨hp, ht, rfl⟩))), ?supplied, ?closed⟩
  case supplied =>
    intro v hv
    have hone : (s.supplyInput v).input.pending = [v] := by
      rw [State.supplyInput_pending ht, hp, List.nil_append]
    obtain ⟨t, he, hreg, -⟩ := completes_input_of_pending (c := c) hone hv
    exact ⟨t, he, hreg⟩
  case closed =>
    have hnone : s.endInput.input.pending = [] := (InputSource.close_pending s.input).trans hp
    exact ⟨_, exec_input_of_exhausted hnone (State.endInput_tail ht),
      State.reg_setReg_same s.endInput c _⟩

/-! ### What an executed instruction can do to the streams -/

/-- The output after `exec i`: as before, or longer by the byte an output instruction gave (R160, R161). -/
inductive OutEffect (i : Instr) (s t : State) : Prop where
  | kept (out : t.out = s.out)
  | appended (c : Reg) (byte : Byte) (instr : i = .output c)
      (value : byte.toNat = (s.reg c).toNat) (out : t.out = s.out ++ [byte])

/-- What an instruction that completes can do to the output, the pending answers and the configuration:
answers are only taken, from the front, and the configuration is never written (R97, R163). -/
theorem exec_next_streams {i : Instr} {s t : State} (h : exec i s = .next t) :
    OutEffect i s t ∧ t.input.pending <:+ s.input.pending ∧ t.config = s.config := by
  cases i with
  | conditionalMove =>
    obtain ⟨-, rfl⟩ | ⟨-, rfl⟩ := exec_conditionalMove_next.1 h <;>
      exact ⟨.kept rfl, List.suffix_rfl, rfl⟩
  | segmentLoad =>
    obtain ⟨_, -, rfl⟩ := exec_segmentLoad_next.1 h
    exact ⟨.kept rfl, List.suffix_rfl, rfl⟩
  | segmentStore =>
    obtain ⟨_, -, rfl⟩ := exec_segmentStore_next.1 h
    exact ⟨.kept rfl, List.suffix_rfl, rfl⟩
  | add =>
    obtain rfl := exec_add_next.1 h
    exact ⟨.kept rfl, List.suffix_rfl, rfl⟩
  | multiply =>
    obtain rfl := exec_multiply_next.1 h
    exact ⟨.kept rfl, List.suffix_rfl, rfl⟩
  | divide =>
    obtain ⟨-, rfl⟩ := exec_divide_next.1 h
    exact ⟨.kept rfl, List.suffix_rfl, rfl⟩
  | bitwiseNand =>
    obtain rfl := exec_bitwiseNand_next.1 h
    exact ⟨.kept rfl, List.suffix_rfl, rfl⟩
  | halt =>
    obtain rfl := exec_halt_next.1 h
    exact ⟨.kept rfl, List.suffix_rfl, rfl⟩
  | mapSegment =>
    obtain ⟨_, _, -, rfl⟩ := exec_mapSegment_next.1 h
    exact ⟨.kept rfl, List.suffix_rfl, rfl⟩
  | unmapSegment =>
    obtain ⟨_, -, rfl⟩ := exec_unmapSegment_next.1 h
    exact ⟨.kept rfl, List.suffix_rfl, rfl⟩
  | output c =>
    obtain ⟨hbyte, rfl⟩ := exec_output_next.1 h
    exact ⟨.appended c _ rfl (toNat_ofNat_byte hbyte) rfl, List.suffix_rfl, rfl⟩
  | input =>
    obtain ⟨v, rest, hp, -, rfl⟩ | ⟨-, -, rfl⟩ | ⟨-, -, rfl⟩ | ⟨_, _, -, -, rfl⟩ :=
      exec_input_next.1 h
    · exact ⟨.kept rfl, hp ▸ List.suffix_cons v rest, rfl⟩
    · exact ⟨.kept rfl, List.suffix_rfl, rfl⟩
    · exact ⟨.kept rfl, List.suffix_rfl, rfl⟩
    · exact ⟨.kept rfl, List.suffix_rfl, rfl⟩
  | loadProgram =>
    obtain ⟨-, rfl⟩ | ⟨-, -, _, -, rfl⟩ := exec_loadProgram_next.1 h <;>
      exact ⟨.kept rfl, List.suffix_rfl, rfl⟩
  | loadValue =>
    obtain rfl := exec_loadValue_next.1 h
    exact ⟨.kept rfl, List.suffix_rfl, rfl⟩

/-- A step ends the run and leaves the streams, or has the effect on them of the instruction it ran. -/
theorem step_next_streams {s t : State} (h : step s = .next t) :
    (t.out = s.out ∨ ∃ i, FetchesInstr s i ∧ OutEffect i s t) ∧
      t.input.pending <:+ s.input.pending ∧ t.config = s.config := by
  obtain ⟨-, ⟨rfl, -⟩ | ⟨i, hi, he⟩⟩ := step_eq_next.1 h
  · exact ⟨.inl rfl, List.suffix_rfl, rfl⟩
  · obtain ⟨outEffect, hpending, hconfig⟩ := exec_next_streams he
    exact ⟨.inr ⟨i, hi, outEffect⟩, hpending, hconfig⟩

/-! ### The contract of the source -/

/-- Only input raises InputOutOfRange, of an answer above 255 at the front of the source (R164). -/
theorem exec_inputOutOfRange {i : Instr} {s : State} {v : Word}
    (h : exec i s = .fault (.inputOutOfRange v)) : v ∈ s.input.pending ∧ 256 ≤ v.toNat := by
  cases i with
  | conditionalMove => exact absurd h exec_conditionalMove_ne_fault
  | segmentLoad => cases (exec_segmentLoad_fault.1 h).2
  | segmentStore => cases (exec_segmentStore_fault.1 h).2
  | add => exact absurd h exec_add_ne_fault
  | multiply => exact absurd h exec_multiply_ne_fault
  | divide => cases (exec_divide_fault.1 h).2
  | bitwiseNand => exact absurd h exec_bitwiseNand_ne_fault
  | halt => exact absurd h exec_halt_ne_fault
  | mapSegment => cases (exec_mapSegment_fault.1 h).2
  | unmapSegment => obtain ⟨-, hf⟩ | ⟨-, -, hf⟩ := exec_unmapSegment_fault.1 h <;> cases hf
  | output => cases (exec_output_fault.1 h).2
  | input =>
    obtain ⟨_, rest, hp, hv, hf⟩ := exec_input_fault.1 h
    cases hf
    exact ⟨hp ▸ List.mem_cons_self, hv⟩
  | loadProgram =>
    obtain ⟨-, ⟨-, hf⟩ | ⟨-, _, -, hf⟩⟩ := exec_loadProgram_fault.1 h <;> cases hf
  | loadValue => exact absurd h exec_loadValue_ne_fault

theorem step_inputOutOfRange {s : State} {v : Word} (h : step s = .fault (.inputOutOfRange v)) :
    v ∈ s.input.pending ∧ 256 ≤ v.toNat := by
  obtain ⟨-, ⟨-, -, hf⟩ | ⟨-, -, hf⟩ | ⟨w, -, -, ⟨e, -, hf⟩ | ⟨i, -, hf⟩⟩⟩ := step_eq_fault.1 h
  · cases hf
  · cases hf
  · cases hf
  · exact exec_inputOutOfRange hf

/-- Settles O42: the fault needs a pending answer above 255; a step only takes answers, and the host adds
the one it supplies or none. -/
theorem sourceOfBytesNeverRaisesInputOutOfRange :
    Obligations.SourceOfBytesNeverRaisesInputOutOfRange := by
  intro s h
  refine ⟨?noFault, ?step, ?supplied, ?closed⟩
  case noFault =>
    intro v hf
    obtain ⟨hmem, hlarge⟩ := step_inputOutOfRange hf
    exact absurd (h v hmem) (Nat.not_lt.2 hlarge)
  case step =>
    intro t hstep v hmem
    obtain ⟨-, hpending, -⟩ := step_next_streams hstep
    exact h v (hpending.subset hmem)
  case supplied =>
    intro v hv w hmem
    obtain hold | rfl := InputSource.mem_supply hmem
    · exact h w hold
    · exact hv
  case closed =>
    intro v hmem
    exact h v (InputSource.close_pending s.input ▸ hmem)

/-! ### The output of a step and of a run -/

/-- Settles O56: the output is as before, or longer by the byte of the output instruction that ran. -/
theorem outputGrowsOnlyByTheOutputInstruction : Obligations.OutputGrowsOnlyByTheOutputInstruction := by
  intro s t hstep
  obtain ⟨hout | ⟨i, hi, outEffect⟩, -, -⟩ := step_next_streams hstep
  · exact .inl hout
  · cases outEffect with
    | kept hout => exact .inl hout
    | appended c byte hinstr hvalue hout => exact .inr ⟨c, byte, hinstr ▸ hi, hout, hvalue⟩

theorem step_out_prefix {s t : State} (h : step s = .next t) : s.out <+: t.out := by
  obtain hout | ⟨_, _, -, hout, -⟩ := outputGrowsOnlyByTheOutputInstruction s t h
  · exact hout ▸ List.prefix_rfl
  · exact hout ▸ List.prefix_append _ _

/-- Settles O57, by induction on the number of steps: the host writes neither the output nor the
configuration, and a step keeps both. -/
theorem outputIsKeptAlongARun : Obligations.OutputIsKeptAlongARun := by
  intro host k s
  induction k generalizing host s with
  | zero =>
    refine ⟨List.prefix_rfl, fun t ht => ?_⟩
    cases ht
    rfl
  | succ k ih =>
    cases hstep : step (s.afterEvent (host 0)) with
    | next t =>
      have hout : s.out <+: t.out := State.afterEvent_out s (host 0) ▸ step_out_prefix hstep
      obtain ⟨-, -, hconfig⟩ := step_next_streams hstep
      rw [State.afterEvent_config] at hconfig
      rw [observe_succ_of_next k hstep]
      obtain ⟨hprefix, hfinal⟩ := ih (fun n => host (n + 1)) t
      exact ⟨hout.trans hprefix, fun u hu => (hfinal u hu).trans hconfig⟩
    | fault f =>
      rw [observe_succ_of_fault k hstep]
      exact ⟨List.prefix_rfl, fun t ht => nomatch ht⟩
    | refused r =>
      rw [observe_succ_of_refused k hstep]
      refine ⟨List.prefix_rfl, fun t ht => ?_⟩
      cases ht
      rfl

end Sys2Proof.Machine
end

section
/-! PROOFS. load-value (spec/45_load_value.md): like the arithmetic instructions it sets one register and
advances pc, and the value it sets is the zero-extended immediate. -/

namespace Sys2Proof.Machine

/-- Settles O23: x[A] is set to `immediateValue`, which keeps the number the immediate is. -/
theorem loadValueZeroExtends : Obligations.LoadValueZeroExtends := by
  intro a imm s
  refine completes_of_setReg (exec_loadValue_next.2 rfl) fun t hval => ?_
  rw [hval, immediateValue_toNat]

end Sys2Proof.Machine
end

section
/-! PROOFS. Faults (spec/60_exceptions.md): what the invariant adds to the faults of map-segment and of the
fetch, the whole list of a step's faults, and what is observed after one. -/

namespace Sys2Proof.Machine

/-! ### The list of faults -/

/-- Below bound there is a word to fetch, so the fetch is not among the faults (R92, R183). -/
theorem Inv.step_eq_fault {s : State} (h : Inv s) {f : Fault} : step s = .fault f ↔ s.run = .running ∧
    ((s.bound < s.pc ∧ s.config.pcPastBound = .fault ∧ f = .pcOutOfRange s.pc s.bound) ∨
      ∃ w, s.pc < s.bound ∧ s.mem.word? 0 s.pc = some w ∧
        ((∃ e, decode w = .error e ∧ f = .dispatchFault (fieldOpcode w) s.pc w) ∨
          ∃ i, decode w = .ok i ∧ exec i s = .fault f)) := by
  have hfetch : ¬ (s.pc < s.bound ∧ s.mem.word? 0 s.pc = none ∧ f = .invalidSegmentAccess 0 s.pc) := by
    rintro ⟨hpc, hnone, -⟩
    obtain ⟨w, hw⟩ := h.exists_word_at_pc hpc
    exact nomatch hnone.symm.trans hw
  rw [Machine.step_eq_fault, or_iff_right hfetch]

/-- Under the invariant the identifiers are used up exactly at a table of 2^32 slots (R48, D8). -/
theorem Inv.exec_mapSegment_fault {s : State} (h : Inv s) {b c : Reg} {f : Fault} :
    exec (.mapSegment b c) s = .fault f ↔
      (s.canHold = false ∨ (s.mem.pool = [] ∧ s.mem.tableLen = 2 ^ 32)) ∧
        f = .resourceExhausted (s.reg c) := by
  have hfull : Config.maxSlots ≤ s.mem.tableLen ↔ s.mem.tableLen = 2 ^ 32 :=
    ⟨h.tableFits.antisymm, Eq.ge⟩
  rw [Machine.exec_mapSegment_fault, hfull]

/-- Settles O47: a word that decodes to no instruction leaves the first entry of the list, and one that
decodes leaves the entry of its instruction, which is that instruction's law. -/
theorem stepFaultsExactlyAsListed : Obligations.StepFaultsExactlyAsListed := by
  intro s f h
  rw [h.step_eq_fault]
  refine and_congr_right fun _ => or_congr_right (exists_congr fun w => and_congr_right fun _ =>
    and_congr_right fun (hw : s.mem.word? 0#32 s.pc = some w) => ?_)
  cases hd : decode w with
  | error e =>
    obtain rfl := decode_error hd
    simp
  | ok i =>
    cases i with
    | conditionalMove => simp [exec_conditionalMove_ne_fault]
    | segmentLoad => simp [exec_segmentLoad_fault]
    | segmentStore => simp [exec_segmentStore_fault]
    | add => simp [exec_add_ne_fault]
    | multiply => simp [exec_multiply_ne_fault]
    | divide => simp [exec_divide_fault, hw]
    | bitwiseNand => simp [exec_bitwiseNand_ne_fault]
    | halt => simp [exec_halt_ne_fault]
    | mapSegment => simp [h.exec_mapSegment_fault]
    | unmapSegment => simp [exec_unmapSegment_fault]
    | output => simp [exec_output_fault]
    | input => simp [exec_input_fault]
    | loadProgram => simp [exec_loadProgram_fault]
    | loadValue => simp [exec_loadValue_ne_fault]

/-! ### After a fault -/

theorem statusAfter_of_fault {s : State} {f : Fault} (h : step s = .fault f) :
    statusAfter s = .faulted f := by
  simp only [statusAfter, h]

/-- After a fault any prefix of the output may have been delivered (R162, D10). -/
theorem delivered_iff_of_faulted {o : Observation} {f : Fault} (h : o.status = .faulted f)
    {bytes : List Byte} : Delivered o bytes ↔ bytes <+: o.out := by
  simp only [Delivered, h]

/-- Settles O58: a faulting step is the last one observed, with the output before it and no state. -/
theorem faultEndsTheRunAndHidesTheState : Obligations.FaultEndsTheRunAndHidesTheState := by
  refine fun s f => ⟨statusAfter_of_fault, fun host k hfault => ?_⟩
  rw [observe_succ_of_fault k hfault]
  exact ⟨rfl, fun _ => delivered_iff_of_faulted rfl⟩

end Sys2Proof.Machine
end

section
/-! PROOFS. Loading (spec/70_reset_and_hazards.md): the words of a program file, and segment 0 of the loaded
machine. -/

namespace Sys2Proof.Machine

/-! ### The words of a program file -/

/-- Word `k` of a program file: bytes 4k to 4k + 3, the first the most significant (R54, R201). -/
def fileWord (file : List Byte) (k : Nat) : Word :=
  wordOfBytes ((file[4 * k]?).getD 0) ((file[4 * k + 1]?).getD 0) ((file[4 * k + 2]?).getD 0)
    ((file[4 * k + 3]?).getD 0)

/-- The words of a program file, in file order. -/
def fileWords (file : List Byte) : List Word := (List.range (file.length / 4)).map (fileWord file)

@[simp] theorem fileWords_length (file : List Byte) : (fileWords file).length = file.length / 4 := by
  simp [fileWords]

theorem fileWords_getElem? {file : List Byte} {k : Nat} (h : k < file.length / 4) :
    (fileWords file)[k]? = some (fileWord file k) := by
  simp [fileWords, h]

/-- The words after the first are those of the file after its first four bytes. -/
theorem fileWord_succ (b0 b1 b2 b3 : Byte) (rest : List Byte) (k : Nat) :
    fileWord (b0 :: b1 :: b2 :: b3 :: rest) (k + 1) = fileWord rest k := by
  simp [fileWord, Nat.mul_add, Nat.add_right_comm _ 4]

theorem fileWords_cons (b0 b1 b2 b3 : Byte) (rest : List Byte) :
    fileWords (b0 :: b1 :: b2 :: b3 :: rest) = wordOfBytes b0 b1 b2 b3 :: fileWords rest := by
  have hlen : (b0 :: b1 :: b2 :: b3 :: rest).length / 4 = rest.length / 4 + 1 := by
    simp only [List.length_cons]
    omega
  rw [fileWords, hlen, List.range_succ_eq_map, List.map_cons, List.map_map]
  exact congrArg _ (List.map_congr_left fun k _ => fileWord_succ b0 b1 b2 b3 rest k)

theorem wordsOfBytes_eq_fileWords (file : List Byte) (h : file.length % 4 = 0) :
    wordsOfBytes file = some (fileWords file) := by
  induction file using wordsOfBytes.induct with
  | case1 => rfl
  | case2 b0 b1 b2 b3 rest ih =>
    have hrest : rest.length % 4 = 0 := by
      simp only [List.length_cons] at h
      omega
    rw [wordsOfBytes, ih hrest, fileWords_cons, Option.map_some]
  | case3 file hnil hcons =>
    match file, h with
    | [], _ => exact absurd rfl hnil
    | b0 :: b1 :: b2 :: b3 :: rest, _ => exact absurd rfl (hcons b0 b1 b2 b3 rest)

/-! ### The loaded machine -/

section
variable (regs : Vector Word 8) (src : InputSource) (capacity : List Bool) (config : Config)

theorem loadBytes_of_length {file : List Byte} (hwhole : file.length % 4 = 0)
    (hfits : file.length / 4 ≤ Config.maxSegmentWords) : loadBytes regs src capacity config file =
      some (startState regs src capacity config (fileWords file)) := by
  rw [loadBytes, wordsOfBytes_eq_fileWords file hwhole]
  exact load_eq_some.2 ⟨by rwa [fileWords_length], rfl⟩

/-- Segment 0 of the loaded machine reads as the loaded words and ends with them (R34, R201). -/
theorem startState_word? {words : List Word} (h : words.length ≤ Config.maxSegmentWords) (k : Word) :
    (startState regs src capacity config words).mem.word? 0 k = words[k.toNat]? := by
  have hseg : (startState regs src capacity config words).mem.segment? 0 =
      some (Segment.ofWords words) := rfl
  have hlen : k < (Segment.ofWords words).len ↔ k.toNat < words.length := by
    rw [BitVec.lt_def, Segment.ofWords_len h]
  by_cases hk : k.toNat < words.length
  · rw [Memory.word?_eq_some.2 ⟨_, hseg, hlen.2 hk, rfl⟩, Segment.ofWords_get,
      List.getElem?_eq_getElem hk, Option.getD_some]
  · rw [List.getElem?_eq_none (Nat.le_of_not_lt hk), Memory.word?_eq_none]
    intro g hg
    cases hseg.symm.trans hg
    exact BitVec.not_lt.1 (mt hlen.1 hk)

end

/-- Settles O10: the file is loaded as its `fileWords`, and word k in segment 0 is its `fileWord` k. -/
theorem loaderReadsTheProgramFileBigEndian : Obligations.LoaderReadsTheProgramFileBigEndian := by
  intro regs src capacity config file hwhole hfits
  have hlen : (fileWords file).length ≤ Config.maxSegmentWords := by rwa [fileWords_length]
  refine ⟨_, loadBytes_of_length regs src capacity config hwhole hfits, rfl, ?bound, rfl, ?words⟩
  case bound => exact (Segment.ofWords_len hlen).trans (fileWords_length file)
  case words =>
    intro k hk
    refine ⟨fileWord file k.toNat, ?_, wordOfBytes_toNat _ _ _ _⟩
    exact (startState_word? regs src capacity config hlen k).trans (fileWords_getElem? hk)

end Sys2Proof.Machine
end

section
/-! PROOFS. The decoder, the encoder, the assembler and the loader, whole (spec/30_encoding.md,
spec/70_reset_and_hazards.md): decoding undoes encoding, the decoder reads nothing but the fields of its
operation, the well-formed source lines are those of the instructions, and what a load and the placing of
a word leave. -/

namespace Sys2Proof

/-! ### Decoding the encoder's words -/

theorem encode_opcode (i : Instr) : (encode i).toNat / 2 ^ 28 = i.operation.opcode.toNat := by
  cases i with
  | loadValue a imm => exact immediateWord_opcode _ _ _
  | _ => exact threeRegisterWord_opcode _ _ _ _

/-- The fields an operation reads are those its encoding lists (R80, R85). -/
theorem instrOf_encode (i : Instr) : instrOf i.operation (encode i) = i := by
  cases i <;> simp [Instr.operation, instrOf, encode]

/-- Settles O1: the encoded word has the operation's opcode and, read for that operation, gives the
instruction. -/
theorem decodeOfEncodeIsTheInstruction : Obligations.DecodeOfEncodeIsTheInstruction := by
  intro i
  rw [decode_of_opcode (encode_opcode i), instrOf_encode]

/-! ### What the decoder reads -/

/-- Settles O3: the quotients are the fields of the word, and each row is `decode_of_opcode` of its
operation. -/
theorem decodeReadsTheFieldsOfEachOperation : Obligations.DecodeReadsTheFieldsOfEachOperation := by
  intro w
  simp only [← fieldA_eq, ← fieldB_eq, ← fieldC_eq, ← fieldAImm_eq, ← fieldImm_eq, ← fieldOpcode_eq]
  exact ⟨decode_of_opcode (o := .conditionalMove), decode_of_opcode (o := .segmentLoad),
    decode_of_opcode (o := .segmentStore), decode_of_opcode (o := .add),
    decode_of_opcode (o := .multiply), decode_of_opcode (o := .divide),
    decode_of_opcode (o := .bitwiseNand), decode_of_opcode (o := .halt),
    decode_of_opcode (o := .mapSegment), decode_of_opcode (o := .unmapSegment),
    decode_of_opcode (o := .output), decode_of_opcode (o := .input),
    decode_of_opcode (o := .loadProgram), decode_of_opcode (o := .loadValue), decode_of_illegal⟩

/-- Settles O4: a word decodes to an instruction where `decode_cases` gives no error. -/
theorem onlyOpcodes14And15AreIllegal : Obligations.OnlyOpcodes14And15AreIllegal := by
  intro w
  obtain ⟨o, hop, hd⟩ | ⟨hill, hd⟩ := decode_cases w
  · exact iff_of_true ⟨_, hd⟩ (hop ▸ o.opcode_lt)
  · exact iff_of_false (by simp [hd]) (Nat.not_lt.2 hill)

/-- Every operation but load-value reads no field other than A, B and C (R80). -/
theorem instrOf_congr {o : Operation} (ho : o ≠ .loadValue) {v w : Word} (ha : fieldA v = fieldA w)
    (hb : fieldB v = fieldB w) (hc : fieldC v = fieldC w) : instrOf o v = instrOf o w := by
  cases o with
  | loadValue => exact absurd rfl ho
  | _ => simp only [instrOf, ha, hb, hc]

/-- Settles O5: A, B and C lie in bits 8 to 0, and an opcode other than 13 reads nothing else. -/
theorem bitsNoFieldNamesChangeNothing : Obligations.BitsNoFieldNamesChangeNothing := by
  intro v w hop hne hlow
  obtain ⟨o, ho, hd⟩ | ⟨hill, hd⟩ := decode_cases v
  · have ha : fieldA v = fieldA w := by
      rw [fieldA_eq, fieldA_eq, Fin.ext_iff, Fin.val_ofNat, Fin.val_ofNat]; omega
    have hb : fieldB v = fieldB w := by
      rw [fieldB_eq, fieldB_eq, Fin.ext_iff, Fin.val_ofNat, Fin.val_ofNat]; omega
    have hc : fieldC v = fieldC w := by
      rw [fieldC_eq, fieldC_eq, Fin.ext_iff, Fin.val_ofNat, Fin.val_ofNat]; omega
    have hload : o ≠ .loadValue := by
      rintro rfl
      exact hne ho
    rw [hd, decode_of_opcode (hop.symm.trans ho), instrOf_congr hload ha hb hc]
  · rw [hd, decode_of_illegal (hop ▸ hill), fieldOpcode_eq, fieldOpcode_eq, hop]

/-- Settles O6: each word is decoded. -/
theorem wordsOfTheVectorTableDecode : Obligations.WordsOfTheVectorTableDecode := by
  unfold Obligations.WordsOfTheVectorTableDecode
  decide

/-! ### Source lines -/

theorem Instr.toSource_wf (i : Instr) : i.toSource.wf = true := by
  have himm : ∀ imm : BitVec 25, imm.toNat ≤ 33554431 := fun imm => Nat.le_of_lt_succ imm.isLt
  cases i <;>
    simp [Instr.toSource, SourceLine.wf, SourceLine.shapeOk, SourceLine.registersOk,
      SourceLine.immediatesOk, SourceOperand.isReg, SourceOperand.registerOk,
      SourceOperand.immediateOk, Operation.registerCount, Operation.takesImmediate, himm,
      List.replicate]

theorem instrOfSource_toSource (i : Instr) :
    instrOfSource i.toSource.op i.toSource.operands = some i := by
  cases i <;> simp [Instr.toSource, instrOfSource]

/-- An instruction's line assembles to the instruction's word (R85). -/
theorem assemble_toSource (i : Instr) : assemble i.toSource = some (encode i) := by
  rw [assemble, if_pos i.toSource_wf, instrOfSource_toSource, Option.map_some]

/-- A list that begins with `n` register operands in range is that many registers and a rest. -/
theorem exists_registers {n : Nat} {tail : List Bool} {xs : List SourceOperand}
    (hshape : xs.map SourceOperand.isReg = List.replicate n true ++ tail)
    (hregs : xs.all SourceOperand.registerOk = true) :
    ∃ (rs : List Reg) (ys : List SourceOperand), rs.length = n ∧
      xs = rs.map (fun r => .reg r.val) ++ ys ∧ ys.map SourceOperand.isReg = tail := by
  induction n generalizing xs with
  | zero => exact ⟨[], xs, rfl, rfl, hshape⟩
  | succ n ih =>
    rw [List.replicate_succ, List.cons_append, List.map_eq_cons_iff] at hshape
    obtain ⟨x, xs, rfl, hx, hshape⟩ := hshape
    rw [List.all_cons, Bool.and_eq_true] at hregs
    obtain ⟨hreg, hregs⟩ := hregs
    obtain ⟨rs, ys, hlen, rfl, hys⟩ := ih hshape hregs
    cases x with
    | imm k => exact nomatch hx
    | reg k => exact ⟨⟨k, of_decide_eq_true hreg⟩ :: rs, ys, by simp [hlen], rfl, hys⟩

/-- The operands of a well-formed line: the operation's registers, then its immediate (R85). -/
theorem SourceLine.exists_operands {l : SourceLine} (h : l.wf = true) :
    ∃ rs : List Reg, rs.length = l.op.registerCount ∧
      if l.op.takesImmediate then
        ∃ imm : BitVec 25, l.operands = rs.map (fun r => .reg r.val) ++ [.imm imm.toNat]
      else l.operands = rs.map fun r => .reg r.val := by
  simp only [SourceLine.wf, SourceLine.shapeOk, Bool.and_eq_true, beq_iff_eq] at h
  obtain ⟨⟨hshape, hregs⟩, himms⟩ := h
  obtain ⟨rs, ys, hlen, hxs, hys⟩ := exists_registers hshape hregs
  refine ⟨rs, hlen, ?_⟩
  split
  · next htakes =>
    rw [if_pos htakes, List.map_eq_singleton_iff] at hys
    obtain ⟨y, rfl, hy⟩ := hys
    cases y with
    | reg k => exact nomatch hy
    | imm k =>
      have hmem : SourceOperand.imm k ∈ l.operands := by simp [hxs]
      have hk : k < 2 ^ 25 := Nat.lt_succ_of_le (of_decide_eq_true (List.all_eq_true.1 himms _ hmem))
      exact ⟨BitVec.ofNatLT k hk, hxs⟩
  · next htakes =>
    rw [if_neg htakes, List.map_eq_nil_iff] at hys
    rw [hxs, hys, List.append_nil]

/-- A well-formed line is some instruction's. -/
theorem SourceLine.exists_toSource {l : SourceLine} (h : l.wf = true) : ∃ i : Instr, i.toSource = l := by
  obtain ⟨rs, hlen, hops⟩ := SourceLine.exists_operands h
  obtain ⟨op, xs⟩ := l
  suffices hi : ∃ i, instrOfSource op xs = some i ∧ i.toSource = ⟨op, xs⟩ from hi.imp fun _ => And.right
  cases op with
  | conditionalMove | segmentLoad | segmentStore | add | multiply | divide | bitwiseNand =>
    obtain ⟨a, b, c, rfl⟩ := List.length_eq_three.1 hlen
    obtain rfl := hops
    exact ⟨_, rfl, by simp [Instr.toSource]⟩
  | halt =>
    obtain rfl := List.length_eq_zero_iff.1 hlen
    obtain rfl := hops
    exact ⟨_, rfl, rfl⟩
  | mapSegment | loadProgram =>
    obtain ⟨b, c, rfl⟩ := List.length_eq_two.1 hlen
    obtain rfl := hops
    exact ⟨_, rfl, by simp [Instr.toSource]⟩
  | unmapSegment | output | input =>
    obtain ⟨c, rfl⟩ := List.length_eq_one_iff.1 hlen
    obtain rfl := hops
    exact ⟨_, rfl, by simp [Instr.toSource]⟩
  | loadValue =>
    obtain ⟨a, rfl⟩ := List.length_eq_one_iff.1 hlen
    obtain ⟨imm, rfl⟩ := hops
    exact ⟨_, rfl, by simp [Instr.toSource]⟩

/-- The assembler accepts a line exactly when it is well-formed (R85). -/
theorem exists_assemble_iff_wf (l : SourceLine) : (∃ w, assemble l = some w) ↔ l.wf = true := by
  constructor
  · rintro ⟨w, hw⟩
    by_contra hwf
    rw [assemble, if_neg hwf] at hw
    cases hw
  · intro hwf
    obtain ⟨i, rfl⟩ := SourceLine.exists_toSource hwf
    exact ⟨_, assemble_toSource i⟩

/-- Settles O7: the words are those of the two layouts of the encoder. -/
theorem assemblerAcceptsExactlyWellFormedLines :
    Obligations.AssemblerAcceptsExactlyWellFormedLines := by
  refine ⟨assemble_toSource, exists_assemble_iff_wf, fun l => SourceLine.exists_toSource, ?_⟩
  intro a b c imm
  simp [encode, threeRegisterWord_toNat, immediateWord_toNat, Operation.opcode, Nat.add_assoc]

/-- The assembler on the text of a line is the assembler on the line: the text parses back. -/
theorem assembleText_text (l : SourceLine) : assembleText l.text = assemble l := by
  rw [assembleText, parseLine_text]

/-- Settles O8: text is assembled as its line is. -/
theorem instructionTextAssemblesToItsWord : Obligations.InstructionTextAssemblesToItsWord := by
  constructor
  · intro i
    rw [assembleText_text, assemble_toSource]
  · intro l
    rw [assembleText_text, exists_assemble_iff_wf]

end Sys2Proof

namespace Sys2Proof.Machine

/-! ### What a load answers -/

/-- Settles O9: the load answers `startState`, whose segment 0 reads as the words. -/
theorem loadLeavesTheStateOfTheResetTable : Obligations.LoadLeavesTheStateOfTheResetTable :=
  fun regs src capacity config _ hlen =>
    ⟨_, load_eq_some.2 ⟨hlen, rfl⟩, rfl, Segment.ofWords_len hlen, rfl, rfl, rfl, rfl, rfl, rfl,
      startState_word? regs src capacity config hlen⟩

/-- A file that does not end with a whole word has no words (R202, D12). -/
theorem wordsOfBytes_eq_none (file : List Byte) (h : file.length % 4 ≠ 0) :
    wordsOfBytes file = none := by
  induction file using wordsOfBytes.induct with
  | case1 => exact absurd rfl h
  | case2 b0 b1 b2 b3 rest ih =>
    have hrest : rest.length % 4 ≠ 0 := by
      simp only [List.length_cons] at h
      omega
    rw [wordsOfBytes, ih hrest, Option.map_none]
  | case3 file hnil hcons => simp only [wordsOfBytes]

/-- Settles O11: a file of whole words is loaded as its `fileWords` exactly when they are few enough. -/
theorem loaderRejectsPartialWordsAndOverlongPrograms :
    Obligations.LoaderRejectsPartialWordsAndOverlongPrograms := by
  intro regs src capacity config file
  by_cases hwhole : file.length % 4 = 0
  · by_cases hfits : file.length / 4 ≤ Config.maxSegmentWords
    · rw [loadBytes_of_length regs src capacity config hwhole hfits]
      exact iff_of_false nofun (not_or.2 ⟨not_not.2 hwhole, Nat.not_lt.2 hfits⟩)
    · rw [loadBytes, wordsOfBytes_eq_fileWords file hwhole]
      exact iff_of_true (if_neg (by rwa [fileWords_length])) (.inr (Nat.lt_of_not_le hfits))
  · rw [loadBytes, wordsOfBytes_eq_none file hwhole]
    exact iff_of_true rfl (.inl hwhole)

/-- Settles O43: reset is the load of the empty program, and a load meets the invariant. -/
theorem resetStateMeetsTheInvariant : Obligations.ResetStateMeetsTheInvariant :=
  loadedStateMeetsTheInvariant _ _ _ _ _ _ reset_eq_load

/-! ### A placed word -/

/-- Placing a word puts a longer segment 0 in the place of segment 0, with its length as bound. -/
theorem Inv.placeWord {s : State} (h : Inv s) (w : Word) : Inv (s.placeWord w) := by
  have hmem := (inv_iff_memInv.1 h).1
  obtain ⟨g₀, hg₀, -⟩ := h.programSegment
  have hwf := Segment.withWordAt_wf (Memory.programSegment_wf h.memory) (fetchIndex_ne_max s.pc) w
  have hplaced := hmem.putSlot_live hg₀ hwf ((if_pos rfl).mpr rfl)
  rw [← Memory.withProgram_eq_putSlot hg₀] at hplaced
  exact inv_iff_memInv.2 ⟨hplaced, iff_of_false nofun nofun, nofun⟩

theorem State.placeWord_fetchesInstr {s : State} (h : s.mem.wf = true) {w : Word} {i : Instr}
    (hi : decode w = .ok i) : FetchesInstr (s.placeWord w) i :=
  ⟨rfl, s.placeWord_pc_lt w, w, State.placeWord_word? h w, hi⟩

/-- Settles O12: the placed word is the one fetched, and placing keeps the invariant. -/
theorem placedWordRunsNext : Obligations.PlacedWordRunsNext := by
  intro s w i h hi
  rw [State.withFetchWord_toNat]
  exact ⟨(State.placeWord_fetchesInstr h.memory hi).step_eq_exec, h.placeWord w⟩

end Sys2Proof.Machine
end
